-- ==== Sys2Proof/Word.lean ====
section
/-! DEFINITION. The word types of the Orbitalink CORE block (spec/30_encoding.md R70 to R72, R76).

Fixed-width fields are bit vectors.
Counts, offsets and the fields whose width is a build parameter (spec/00_scope.md R7) are natural numbers. -/

namespace Sys2Proof

/-- A byte of a window or an output buffer, opaque to the block (R72).
The codec's bit groups and registers are also physically 8 bits wide (R20, R71). -/
abbrev Byte := BitVec 8

/-- The 16-bit command word `CMD16` (R76). -/
abbrev CmdWord := BitVec 16

end Sys2Proof
end

