-- ==== Sys2Proof/Config.lean ====
section
/-! DEFINITION. The build parameters of one CORE instance (spec/00_scope.md R7, spec/93_implementation_defined.md I10, I11, I17).

R7 makes each of them a named parameter the model takes as an argument.
DESIGN CHOICE (log entry 6): they stand in `State.params`, which no operation and no reset writes, so a statement about every state is a
statement about every build. -/

namespace Sys2Proof

/-- The named parameters of R7, and the switch `START_AFTER_MATCH` of I17. -/
structure Params where
  /-- `PLEN_WIDTH`: width of `packetLength` and of `remaining`. -/
  plenWidth : Nat
  /-- `OFFSET_WIDTH`: width of an absolute stream offset. -/
  offsetWidth : Nat
  /-- `KIND_WIDTH`: width of an event kind code. -/
  kindWidth : Nat
  /-- `PATTERN_MAX`: the longest sync pattern, in bits. -/
  patternMax : Nat
  /-- `MAX_WINDOW`: the longest input window of one `SYNC.STEP`, in bytes. -/
  maxWindow : Nat
  /-- `MAX_EVENTS`: the longest event list of one `SYNC.STEP`. -/
  maxEvents : Nat
  /-- `MAX_OUTCAP`: the largest output capacity of one `SYNC.STEP`, in bytes. -/
  maxOutcap : Nat
  /-- `START_AFTER_MATCH` (I17): `false` is the spec's own reading (D12), the payload starts at the event's byte (log entry 7). -/
  startAfterMatch : Bool
  deriving DecidableEq, Repr

/-- The defaults of R7.
DESIGN CHOICE (log entry 1, unsafe): R7 leaves the three bounds per invocation OPEN; this build takes 65535 for each. -/
def Params.default : Params where
  plenWidth := 32
  offsetWidth := 64
  kindWidth := 8
  patternMax := 64
  maxWindow := 65535
  maxEvents := 65535
  maxOutcap := 65535
  startAfterMatch := false

end Sys2Proof
end

