-- ==== Sys2Proof/Syntax.lean ====
section
/-! DEFINITION. Operand records, commands and instructions (spec/30_encoding.md R73, R76, R77, R82, R83). -/

namespace Sys2Proof

/-- A SyncEvent record `{kind, offset}` (R73); the widths are `KIND_WIDTH` and `OFFSET_WIDTH`. -/
structure SyncEvent where
  kind : Nat
  offset : Nat
  deriving DecidableEq, Repr

/-- A buffer the host gives the block directly (R64): where it stands in host memory, and its length in bytes.
DESIGN CHOICE (log entry 2): the place is the model's own, and only the overlap rule R59 depends on it. -/
structure Buffer where
  base : Nat
  len : Nat
  deriving DecidableEq, Repr

/-- The `SYNC.STEP` operand record (R83): `n = window.len`, `in = window`, `ev = events`, `cap = out.len`, `out = out`. -/
structure StepRecord where
  window : Buffer
  events : List SyncEvent
  out : Buffer
  deriving DecidableEq, Repr

/-- The sync pattern: its length field and its bits (R82, `cfg_pattern` of R20). -/
structure SyncPattern where
  len : BitVec 7
  bits : Nat
  deriving DecidableEq, Repr

/-- The `CFG` operand record (R82). -/
structure CfgRecord where
  m : BitVec 9
  plen : Nat
  kind : Nat
  pattern : SyncPattern
  deriving DecidableEq, Repr

/-- The record ports at zero: what the host drives where an operation reads no record. -/
def StepRecord.zero : StepRecord := ⟨⟨0, 0⟩, [], ⟨0, 0⟩⟩

/-- The `CFG` record port at zero. -/
def CfgRecord.zero : CfgRecord := ⟨0, 0, 0, ⟨0, 0⟩⟩

/-- What the host drives on the command interface for one operation: the command word (R76) and the two
operand record ports (R82, R83).
An operation reads only the record it names. -/
structure Command where
  word : CmdWord
  cfg : CfgRecord
  step : StepRecord
  deriving DecidableEq, Repr

/-- One constructor per row of the opcode map (R77).
`enc` and `dec` carry the whole `data` field: its width check needs `K` and comes second (R81). -/
inductive Instr where
  | enc (data : Byte)
  | dec (data : Byte)
  | encRst
  | decRst
  | syncStep (r : StepRecord)
  | syncRst
  | cfg (r : CfgRecord)
  deriving DecidableEq, Repr

/-- The pseudo-instructions of R87. -/
inductive Pseudo where
  | streamStart
  | encByte (v : Byte)
  | decByte (v : Byte)
  deriving DecidableEq, Repr

end Sys2Proof
end

