-- ==== Sys2Proof/WellFormed.lean ====
section
/-! DEFINITION. What the operand ports can carry (spec/30_encoding.md R73, R82, R83).

A field whose width is a build parameter holds a value below `2 ^ width`: a wider one cannot be presented. -/

namespace Sys2Proof

/-- `kind` is `KIND_WIDTH` bits and `offset` is `OFFSET_WIDTH` bits (R73). -/
def SyncEvent.wf (p : Params) (e : SyncEvent) : Bool :=
  decide (e.kind < 2 ^ p.kindWidth) && decide (e.offset < 2 ^ p.offsetWidth)

/-- Every event of the list is an event record (R83).
The lengths are integers; a length over its bound is presented and answered `WINDOW_LIMIT` (R132). -/
def StepRecord.wf (p : Params) (r : StepRecord) : Bool :=
  r.events.all (SyncEvent.wf p)

/-- `plen` is `PLEN_WIDTH` bits, `kind` is `KIND_WIDTH` bits and `pattern` is `PATTERN_MAX` bits (R82). -/
def CfgRecord.wf (p : Params) (r : CfgRecord) : Bool :=
  decide (r.plen < 2 ^ p.plenWidth) && decide (r.kind < 2 ^ p.kindWidth) &&
    decide (r.pattern.bits < 2 ^ p.patternMax)

/-- An instruction is well formed when the ports of this build can carry its operands. -/
def Instr.wf (p : Params) : Instr → Bool
  | .enc _ => true
  | .dec _ => true
  | .encRst => true
  | .decRst => true
  | .syncStep r => r.wf p
  | .syncRst => true
  | .cfg r => r.wf p

end Sys2Proof
end

