-- ==== Sys2Proof/Decode.lean ====
section
/-! DEFINITION. The decoder, the encoder, the pseudo-instructions and the assembler lines
(spec/30_encoding.md R76 to R81, R85 to R87). -/

namespace Sys2Proof

/-- `op = cmd[15:12]` (R76). -/
def opField (w : CmdWord) : BitVec 4 := w.extractLsb' 12 4

/-- `rsv = cmd[11:8]` (R76). -/
def rsvField (w : CmdWord) : BitVec 4 := w.extractLsb' 8 4

/-- `data = cmd[7:0]` (R76). -/
def dataField (w : CmdWord) : Byte := w.extractLsb' 0 8

/-- Why a command word is no instruction. -/
inductive DecodeError where
  /-- `rsv != 0` (R79). -/
  | reservedBits
  /-- A reserved opcode, 0x0 or 0x8 to 0xF (R80). -/
  | reservedOpcode
  /-- A non-zero `data` on an operation without operand (R78). -/
  | strayData
  /-- `data[7:K] != 0` on `ENC` or `DEC`, found by the second stage (R78). -/
  | groupTooWide
  deriving DecidableEq, Repr

/-- An operation whose `data` field must be zero (R78). -/
def withoutOperand (w : CmdWord) (i : Instr) : Except DecodeError Instr :=
  if dataField w = 0 then .ok i else .error .strayData

/-- The first stage `decode1` (R81), on the word alone; the record ports give the operands of `SYNC.STEP` and `CFG`. -/
def decode (c : Command) : Except DecodeError Instr :=
  if rsvField c.word ≠ 0 then .error .reservedBits
  else
    match (opField c.word).toNat with
    | 0x1 => .ok (.enc (dataField c.word))
    | 0x2 => .ok (.dec (dataField c.word))
    | 0x3 => withoutOperand c.word .encRst
    | 0x4 => withoutOperand c.word .decRst
    | 0x5 => withoutOperand c.word (.syncStep c.step)
    | 0x6 => withoutOperand c.word .syncRst
    | 0x7 => withoutOperand c.word (.cfg c.cfg)
    | _ => .error .reservedOpcode

/-- `data[7:K] = 0`: the group is at most `K` bits (R78). -/
def groupFits (k : Nat) (data : Byte) : Bool := decide (data.toNat < 2 ^ k)

/-- The second stage `decode2` (R81), which needs `K`. -/
def decodeWidth (k : Nat) : Instr → Except DecodeError Instr
  | .enc data => if groupFits k data then .ok (.enc data) else .error .groupTooWide
  | .dec data => if groupFits k data then .ok (.dec data) else .error .groupTooWide
  | i => .ok i

/-- A command word with its record ports at zero. -/
def Command.ofWord (w : CmdWord) : Command := ⟨w, .zero, .zero⟩

/-- The command word of an operation `op` with operand `data`: `{op, 0000, data}` (R76). -/
def cmdWord (op : BitVec 4) (data : Byte) : CmdWord := op.setWidth 16 <<< 12 ||| data.setWidth 16

/-- The encoder: the command that decodes to an instruction, written from the opcode map (R77) and the syntax table (R86). -/
def encode : Instr → Command
  | .enc data => .ofWord (cmdWord 0x1 data)
  | .dec data => .ofWord (cmdWord 0x2 data)
  | .encRst => .ofWord (cmdWord 0x3 0)
  | .decRst => .ofWord (cmdWord 0x4 0)
  | .syncStep r => { Command.ofWord (cmdWord 0x5 0) with step := r }
  | .syncRst => .ofWord (cmdWord 0x6 0)
  | .cfg r => { Command.ofWord (cmdWord 0x7 0) with cfg := r }

/-- The opcode table's numbering of an instruction's bits: a 16-bit word on a 16-bit port, no byte order (R76).
The table gives the operand records no bits, so they are zero (log entry 11). -/
def tableCommand (nbits w : Nat) : Command := .ofWord (BitVec.ofNat 16 (w % 2 ^ nbits))

/-- The instruction the decoder reads from a word of the opcode table. -/
def decodeTableWord (nbits w : Nat) : Option Instr :=
  match decode (tableCommand nbits w) with
  | .ok i => some i
  | .error _ => none

/-- The groups `v[7:8-K], v[7-K:8-2K], …, v[K-1:0]` of a byte, most significant first (R87; the test convention of R56).
Empty unless `K` divides 8. -/
def byteGroups (k : Nat) (v : Byte) : List Byte :=
  if 8 % k = 0 then
    (List.range (8 / k)).map (fun j => BitVec.ofNat 8 (v.toNat / 2 ^ (8 - k * (j + 1)) % 2 ^ k))
  else []

/-- The expansion of a pseudo-instruction under `K` (R87). -/
def Pseudo.expand (k : Nat) : Pseudo → List Instr
  | .streamStart => [.encRst, .decRst, .syncRst]
  | .encByte v => (byteGroups k v).map .enc
  | .decByte v => (byteGroups k v).map .dec

/-- A list in the assembler's brackets (R86). -/
def asmList (items : List String) : String := "[" ++ String.intercalate ", " items ++ "]"

/-- The assembler line of an instruction (R86); `window` lists the bytes of the input window for `in=<bytes>`.
DESIGN CHOICE (log entry 12): numbers are decimal, lists stand in brackets, the pattern is binary. -/
def Instr.asm (window : List Byte) : Instr → String
  | .enc data => "ENC   #" ++ toString data.toNat
  | .dec data => "DEC   #" ++ toString data.toNat
  | .encRst => "ENC.RST"
  | .decRst => "DEC.RST"
  | .syncStep r =>
    "SYNC.STEP in=" ++ asmList (window.map (fun b => toString b.toNat)) ++
      " ev=" ++ asmList (r.events.map (fun e => "(" ++ toString e.kind ++ "," ++ toString e.offset ++ ")")) ++
      " cap=" ++ toString r.out.len
  | .syncRst => "SYNC.RST"
  | .cfg r =>
    "CFG   m=" ++ toString r.m.toNat ++ " plen=" ++ toString r.plen ++ " kind=" ++ toString r.kind ++
      " pattern=" ++ "0b" ++ String.ofList ((List.range r.pattern.len.toNat).map (fun j =>
        if r.pattern.bits.testBit (r.pattern.len.toNat - 1 - j) then '1' else '0'))

end Sys2Proof
end

