-- ==== Sys2Proof/Machine/State.lean ====
section
/-! DEFINITION. The state of one CORE instance and of the host buffers it is given
(spec/10_state.md R20 to R33, spec/70_reset_and_hazards.md R220). -/

namespace Sys2Proof.Machine

/-- The operating mode (R21); the value 3 of its encoding never occurs (R75, I4). -/
inductive Mode where
  | unconfigured
  | configured
  | fatal
  deriving DecidableEq, Repr

/-- The extraction state `xs` (R25, R74). -/
inductive ExtractState where
  | searching
  | copying
  deriving DecidableEq, Repr

/-- The error codes 0 to 8 of R190; codes 9 to 15 are never returned (I2). -/
inductive ErrCode where
  | ok
  | illegalOp
  | notConfigured
  | fatal
  | cfgBadM
  | cfgBadPlen
  | cfgLocked
  | windowLimit
  | offsetOverflow
  deriving DecidableEq, Repr

/-- The response record (R84): a field an operation does not set is 0. -/
structure Response where
  err : ErrCode
  data : Byte := 0
  consumed : Nat := 0
  produced : Nat := 0
  payloadDone : Bool := false
  detectValid : Bool := false
  detectOffset : Nat := 0
  deriving DecidableEq, Repr

/-- Host memory: the bytes that exist, by address, addresses strictly rising (`Memory.wf`).
An address that is not listed has no byte.
DESIGN CHOICE (log entry 2): the two buffers of a `SYNC.STEP` (R50) are given as places in this memory. -/
abbrev Memory := List Host.Cell

/-- What the host can do to the block between operations (R58, R60, R220).
DESIGN CHOICE (log entry 3): the host's acts wait in a queue, and one step takes one of them. -/
inductive HostInput where
  /-- Issue one operation on the command interface (R31, R76). -/
  | command (c : Command)
  /-- Assert the hardware reset input (R220). -/
  | reset
  /-- Write bytes into the host's own memory, from an address up: a window to be read, or room for output. -/
  | write (base : Nat) (bytes : List Byte)
  deriving DecidableEq, Repr

/-- The whole state.
The first group is the table of R20, the second the observation state of R33, the third the response port (R84)
and the outside world, the last the build parameters (R7). -/
structure State where
  /-- `mode` (R21). -/
  mode : Mode
  /-- `cfg_M`, 9 bits; 0 means none (R22). -/
  cfgM : BitVec 9
  /-- `cfg_K = log2(M)`, 4 bits (R22, R175). -/
  cfgK : BitVec 4
  /-- `cfg_P`, the packet length, below `2 ^ PLEN_WIDTH` (R22). -/
  cfgP : Nat
  /-- `cfg_kind`, below `2 ^ KIND_WIDTH` (R22). -/
  cfgKind : Nat
  /-- `cfg_pattern`, stored only (R22, R176). -/
  cfgPattern : SyncPattern
  /-- `enc_prev` (R23). -/
  encPrev : Byte
  /-- `dec_prev` (R24). -/
  decPrev : Byte
  /-- `xs` (R25). -/
  xs : ExtractState
  /-- `remaining`, below `2 ^ PLEN_WIDTH` (R26). -/
  remaining : Nat
  /-- `abs_pos`, below `2 ^ OFFSET_WIDTH` (R27). -/
  absPos : Nat
  /-- `last_err` (R28). -/
  lastErr : ErrCode
  /-- `fatal_code`, `ok` (0) in every mode but Fatal (R29). -/
  fatalCode : ErrCode
  /-- `partial`: the bytes copied so far in the current Copying session (R33, R148). -/
  partialPayload : List Byte
  /-- `payloads`: the completed payloads handed to the sink, first one first (R33, R148). -/
  payloads : List (List Byte)
  /-- The response of the most recent operation (R84, R191); `none` when none has answered since reset.
  DESIGN CHOICE (log entry 5). -/
  resp : Option Response
  /-- Host memory, which holds the windows and the output buffers (R50). -/
  mem : Memory
  /-- The host's acts still to come, next one first. -/
  pending : List HostInput
  /-- The build parameters (R7). -/
  params : Params
  deriving DecidableEq, Repr

/-- Reasons to stop with a fault: none.
The block has no traps (R196): every error is an answer, so no meaning ends in a fault (DEDUCED, log entry 10). -/
inductive Fault
  deriving DecidableEq, Repr

/-- Reasons the model gives a command no meaning. -/
inductive Refusal where
  /-- An arm of `exec` that has no meaning yet; no arm raises it. Safe. -/
  | notModelled (mnemonic : String)
  /-- `step`, on a command with an operand wider than its port (R82, R83): it cannot be presented.
  Safe (log entry 4). -/
  | notPresentable
  /-- `SYNC.STEP` performed with a window and an output buffer that overlap (R59, R228). Safe. -/
  | bufferOverlap
  /-- `SYNC.STEP` performed with a window that does not hold `n` readable bytes (R228). Safe. -/
  | windowUnreadable
  /-- `SYNC.STEP` performed with an output buffer that does not hold `cap` writable bytes (R228). Safe. -/
  | outputUnwritable
  deriving DecidableEq, Repr

/-- The machine right after hardware reset (R20, R220), with no response yet, an empty host memory and nothing pending. -/
def State.reset : State where
  mode := .unconfigured
  cfgM := 0
  cfgK := 0
  cfgP := 0
  cfgKind := 0
  cfgPattern := ⟨0, 0⟩
  encPrev := 0
  decPrev := 0
  xs := .searching
  remaining := 0
  absPos := 0
  lastErr := .ok
  fatalCode := .ok
  partialPayload := []
  payloads := []
  resp := none
  mem := []
  pending := []
  params := .default

end Sys2Proof.Machine
end

