-- ==== Sys2Proof/Machine/Flags.lean ====
section
/-! DEFINITION. The binary codes of modes, states and errors, and the read-only status view
(spec/10_state.md R34 to R36, spec/30_encoding.md R74, R75, spec/60_exceptions.md R190).

The block has no condition flags (R36). -/

namespace Sys2Proof.Machine

/-- The 2-bit code of a mode (R75). -/
def Mode.code : Mode → BitVec 2
  | .unconfigured => 0
  | .configured => 1
  | .fatal => 2

/-- The 1-bit code of an extraction state (R74). -/
def ExtractState.code : ExtractState → BitVec 1
  | .searching => 0
  | .copying => 1

/-- The 4-bit code of an error (R190). -/
def ErrCode.code : ErrCode → BitVec 4
  | .ok => 0
  | .illegalOp => 1
  | .notConfigured => 2
  | .fatal => 3
  | .cfgBadM => 4
  | .cfgBadPlen => 5
  | .cfgLocked => 6
  | .windowLimit => 7
  | .offsetOverflow => 8

/-- `STATUS` (R35): `MODE` in [1:0], `XS` in [2], `FATAL_CODE` in [7:4], `LAST_ERR` in [11:8], every other bit 0. -/
def statusWord (s : State) : BitVec 16 :=
  s.mode.code.setWidth 16 ||| s.xs.code.setWidth 16 <<< 2 ||| s.fatalCode.code.setWidth 16 <<< 4 |||
    s.lastErr.code.setWidth 16 <<< 8

/-- `cfg_pattern` as `{length[6:0], bits}`, `PATTERN_MAX + 7` bits (R34). -/
def patternWord (s : State) : Nat := s.cfgPattern.len.toNat * 2 ^ s.params.patternMax + s.cfgPattern.bits

/-- The status outputs by number (R34), each read as an unsigned integer; numbers 0xA to 0xF read 0.
They can be read at any time between operations and nothing writes through them. -/
def statusOutput (number : BitVec 4) (s : State) : Nat :=
  match number.toNat with
  | 0x0 => (statusWord s).toNat
  | 0x1 => s.cfgM.toNat
  | 0x2 => s.cfgK.toNat
  | 0x3 => s.cfgP
  | 0x4 => s.cfgKind
  | 0x5 => patternWord s
  | 0x6 => s.encPrev.toNat
  | 0x7 => s.decPrev.toNat
  | 0x8 => s.remaining
  | 0x9 => s.absPos
  | _ => 0

end Sys2Proof.Machine
end

