-- ==== Sys2Proof/Machine/Memory.lean ====
section
/-! DEFINITION. Byte accesses to the host's buffers (spec/20_memory.md R50 to R53, R57 to R59). -/

namespace Sys2Proof.Machine

/-- The canonical form: addresses strictly rising, so each address is listed at most once. -/
abbrev Memory.wf (m : Memory) : Prop := m.Pairwise (fun a b => a.1 < b.1)

/-- The byte at an address, `none` where the host has none. -/
def Memory.read : Memory → Nat → Option Byte
  | [], _ => none
  | (b, w) :: rest, a => if b = a then some w else Memory.read rest a

/-- Write one byte, in canonical form. -/
def Memory.write : Memory → Nat → Byte → Memory
  | [], a, v => [(a, v)]
  | (b, w) :: rest, a, v =>
    if a < b then (a, v) :: (b, w) :: rest
    else if a = b then (a, v) :: rest
    else (b, w) :: Memory.write rest a v

/-- Write bytes from an address up, in ascending order. -/
def Memory.writeBytes : Memory → Nat → List Byte → Memory
  | m, _, [] => m
  | m, a, v :: vs => Memory.writeBytes (m.write a v) (a + 1) vs

/-- Every byte of a buffer exists (R228). -/
def Memory.holds (m : Memory) (b : Buffer) : Bool :=
  (List.range' b.base b.len).all (fun a => (m.read a).isSome)

/-- The bytes that stand from an address up, in ascending order. -/
def Memory.bytes (m : Memory) (base len : Nat) : List Byte :=
  (List.range' base len).filterMap m.read

/-- The copy loop of R139: `count` single-byte reads and writes in ascending order (R58).
An unreadable source byte is passed over; `SYNC.STEP` refuses such a window first (R228). -/
def Memory.copy : Nat → Memory → Nat → Nat → Memory
  | 0, m, _, _ => m
  | count + 1, m, src, dst =>
    match m.read src with
    | some v => Memory.copy count (m.write dst v) (src + 1) (dst + 1)
    | none => Memory.copy count m (src + 1) (dst + 1)

/-- Two buffers share a byte (R59). -/
def buffersOverlap (a b : Buffer) : Bool :=
  decide (0 < a.len) && decide (0 < b.len) &&
    decide (a.base < b.base + b.len) && decide (b.base < a.base + a.len)

end Sys2Proof.Machine
end

