-- ==== Sys2Proof/Machine/Operands.lean ====
section
/-! DEFINITION. Operand forms and the checks on them
(spec/40_line_codec.md R100, spec/41_sync_extractor.md R132 to R136, spec/42_control.md R171, spec/20_memory.md R59). -/

namespace Sys2Proof.Machine

/-- `(a + b) mod M` (R100). -/
def addMod (a b : Byte) (m : BitVec 9) : Byte := BitVec.ofNat 8 ((a.toNat + b.toNat) % m.toNat)

/-- `(a - b) mod M`, the mathematical modulus, in `[0, M)` also when `a < b` (R9, R100). -/
def subMod (a b : Byte) (m : BitVec 9) : Byte :=
  BitVec.ofNat 8 (((a.toNat : Int) - (b.toNat : Int)) % (m.toNat : Int)).toNat

/-- `M` is a power of two and `2 <= M <= 256` (R171). -/
def legalAlphabet (m : BitVec 9) : Bool :=
  decide (2 ≤ m.toNat) && decide (m.toNat ≤ 256) && decide (2 ^ m.toNat.log2 = m.toNat)

/-- `log2(m)` as the 4-bit `cfg_K` (R172, R175). -/
def alphabetBits (m : BitVec 9) : BitVec 4 := BitVec.ofNat 4 m.toNat.log2

/-- The configuration checks in their order (R171): `m` first, then `plen`. -/
def cfgProblem (r : CfgRecord) : Option ErrCode :=
  if !legalAlphabet r.m then some .cfgBadM
  else if r.plen = 0 then some .cfgBadPlen
  else none

/-- An event is valid for the window `[ws, ws + n)` (R10, R134). -/
def validEvent (kind ws n : Nat) (e : SyncEvent) : Bool :=
  decide (e.kind = kind) && decide (ws ≤ e.offset) && decide (e.offset < ws + n)

/-- The least offset of a list of events (R136). -/
def leastOffset : List SyncEvent → Option Nat
  | [] => none
  | e :: es =>
    match leastOffset es with
    | none => some e.offset
    | some t => some (min e.offset t)

/-- The offset of the event `SYNC.STEP` picks while Searching: the least valid one (R134, R136). -/
def pickedOffset (s : State) (r : StepRecord) : Option Nat :=
  leastOffset (r.events.filter (validEvent s.cfgKind s.absPos r.window.len))

/-- How far after the event's byte the payload starts: 0 by the spec's reading (R136, D12), 1 with the switch of I17. -/
def matchLead (p : Params) : Nat := if p.startAfterMatch then 1 else 0

/-- The number of bytes one copy moves, `min(n - cursor, remaining, cap)` (R139). -/
def copyCount (r : StepRecord) (cursor remaining : Nat) : Nat :=
  min (min (r.window.len - cursor) remaining) r.out.len

/-- The operand checks of `SYNC.STEP` in their order (R132). -/
def stepProblem (s : State) (r : StepRecord) : Option ErrCode :=
  if r.window.len > s.params.maxWindow ∨ r.events.length > s.params.maxEvents ∨ r.out.len > s.params.maxOutcap then
    some .windowLimit
  else if s.absPos + r.window.len > 2 ^ s.params.offsetWidth - 1 then some .offsetOverflow
  else none

/-- The buffer duty of the host that a `SYNC.STEP` breaks, if any (R59, R228).
DESIGN CHOICE (log entry 8): the order of the three, and that they are checked whether or not a byte will be copied. -/
def bufferProblem (m : Memory) (r : StepRecord) : Option Refusal :=
  if buffersOverlap r.window r.out then some .bufferOverlap
  else if !m.holds r.window then some .windowUnreadable
  else if !m.holds r.out then some .outputUnwritable
  else none

end Sys2Proof.Machine
end

