-- ==== Sys2Proof/Machine/Ops.lean ====
section
/-! DEFINITION. Answering, raising an error, mode gating and hardware reset
(spec/60_exceptions.md R190 to R196, spec/70_reset_and_hazards.md R220). -/

namespace Sys2Proof.Machine

/-- Give the one response of an operation (R84, R191); every operation writes `last_err` (R28). -/
def State.answer (s : State) (r : Response) : State :=
  { s with lastErr := r.err, resp := some r }

/-- `raise E` (R9, R192): the response is `E` with every other field 0, and no state but `last_err` changes.
The block has no trap to enter and none to return from (R196, R198). -/
def raiseErr (e : ErrCode) (s : State) : Host.Outcome State Fault Refusal :=
  .next (s.answer { err := e })

/-- A failed `CFG` (R173): `mode` becomes Fatal and `fatal_code` records the error. -/
def raiseFatal (e : ErrCode) (s : State) : Host.Outcome State Fault Refusal :=
  .next ({ s with mode := .fatal, fatalCode := e }.answer { err := e })

/-- The mode checks of every operation but `CFG` (R193 steps 2 and 3, R194). -/
def whenConfigured (s : State) (body : Host.Outcome State Fault Refusal) : Host.Outcome State Fault Refusal :=
  match s.mode with
  | .fatal => raiseErr .fatal s
  | .unconfigured => raiseErr .notConfigured s
  | .configured => body

/-- The second decode stage of `ENC` and `DEC`, under the `K` of the configuration (R81, R193 step 5). -/
def whenWidthFits (s : State) (i : Instr) (body : Host.Outcome State Fault Refusal) :
    Host.Outcome State Fault Refusal :=
  match decodeWidth s.cfgK.toNat i with
  | .error _ => raiseErr .illegalOp s
  | .ok _ => body

/-- The hardware reset input (R220): every register of R20 takes its reset value, `partial` and `payloads` become empty.
The host's memory, its pending acts and the build parameters are not the block's registers; they stay. -/
def hardwareReset (s : State) : State :=
  { State.reset with mem := s.mem, pending := s.pending, params := s.params }

/-- The host writes its own memory between operations (R58, R61). -/
def hostWrite (base : Nat) (bytes : List Byte) (s : State) : State :=
  { s with mem := s.mem.writeBytes base bytes }

end Sys2Proof.Machine
end

