-- ==== Sys2Proof/Machine/Control.lean ====
section
/-! DEFINITION. The configuration operation `CFG` (spec/42_control.md R170 to R175). -/

namespace Sys2Proof.Machine

/-- What a legal `CFG` writes (R172); `partial` is emptied (R149). -/
def loadConfig (r : CfgRecord) (s : State) : State :=
  { s with
    cfgM := r.m
    cfgK := alphabetBits r.m
    cfgP := r.plen
    cfgKind := r.kind
    cfgPattern := r.pattern
    encPrev := 0
    decPrev := 0
    xs := .searching
    remaining := 0
    absPos := 0
    mode := .configured
    partialPayload := [] }

/-- `CFG` (R171 to R174). -/
def execCfg (r : CfgRecord) (s : State) : Host.Outcome State Fault Refusal :=
  match s.mode with
  | .fatal => raiseErr .fatal s
  | .configured => raiseErr .cfgLocked s
  | .unconfigured =>
    match cfgProblem r with
    | some e => raiseFatal e s
    | none => .next ((loadConfig r s).answer { err := .ok })

end Sys2Proof.Machine
end

