-- ==== Sys2Proof/Machine/LineCodec.lean ====
section
/-! DEFINITION. The line codec operations `ENC`, `DEC`, `ENC.RST`, `DEC.RST` (spec/40_line_codec.md R100 to R104). -/

namespace Sys2Proof.Machine

/-- `ENC #b` (R101): emit `(enc_prev + b) mod M` and keep it. -/
def execEnc (data : Byte) (s : State) : Host.Outcome State Fault Refusal :=
  whenConfigured s <| whenWidthFits s (.enc data) <|
    let cur := addMod s.encPrev data s.cfgM
    .next ({ s with encPrev := cur }.answer { err := .ok, data := cur })

/-- `DEC #s` (R102): emit `(s - dec_prev) mod M` and keep the received symbol. -/
def execDec (data : Byte) (s : State) : Host.Outcome State Fault Refusal :=
  whenConfigured s <| whenWidthFits s (.dec data) <|
    .next ({ s with decPrev := data }.answer { err := .ok, data := subMod data s.decPrev s.cfgM })

/-- `ENC.RST` (R103). -/
def execEncRst (s : State) : Host.Outcome State Fault Refusal :=
  whenConfigured s <| .next ({ s with encPrev := 0 }.answer { err := .ok })

/-- `DEC.RST` (R104). -/
def execDecRst (s : State) : Host.Outcome State Fault Refusal :=
  whenConfigured s <| .next ({ s with decPrev := 0 }.answer { err := .ok })

end Sys2Proof.Machine
end

