-- ==== Sys2Proof/Machine/SyncExtractor.lean ====
section
/-! DEFINITION. The sync frame extractor operations `SYNC.STEP` and `SYNC.RST` (spec/41_sync_extractor.md R130 to R149). -/

namespace Sys2Proof.Machine

/-- Searching with no valid event (R135): the whole window is consumed and nothing produced. -/
def skipWindow (r : StepRecord) (s : State) : State :=
  { s with absPos := s.absPos + r.window.len }.answer { err := .ok, consumed := r.window.len }

/-- The second half of R144, in Copying with a local cursor and `left` bytes of the payload to go (R139 to R142).
`detected` is the offset of the event that started the session in this invocation (R146).
`partial` and `payloads` follow the output bytes (R148). -/
def copyPhase (r : StepRecord) (cursor left : Nat) (detected : Option Nat) (s : State) : State :=
  let count := copyCount r cursor left
  let mem := s.mem.copy count (r.window.base + cursor) r.out.base
  let done := decide (left - count = 0)
  let gathered := s.partialPayload ++ mem.bytes r.out.base count
  { s with
    mem := mem
    xs := if done then .searching else .copying
    remaining := left - count
    absPos := s.absPos + (cursor + count)
    partialPayload := if done then [] else gathered
    payloads := if done then s.payloads ++ [gathered] else s.payloads }.answer
  { err := .ok
    consumed := cursor + count
    produced := count
    payloadDone := done
    detectValid := detected.isSome
    detectOffset := detected.getD 0 }

/-- One invocation of the extractor after its checks (R144): search if Searching, then copy. -/
def extract (r : StepRecord) (s : State) : State :=
  match s.xs with
  | .copying => copyPhase r 0 s.remaining none s
  | .searching =>
    match pickedOffset s r with
    | none => skipWindow r s
    | some t => copyPhase r (t - s.absPos + matchLead s.params) s.cfgP (some t) s

/-- `SYNC.STEP` (R144): the mode checks, the operand checks (R132), the host's buffer duties (R59, R228), the invocation. -/
def execSyncStep (r : StepRecord) (s : State) : Host.Outcome State Fault Refusal :=
  whenConfigured s <|
    match stepProblem s r with
    | some e => raiseErr e s
    | none =>
      match bufferProblem s.mem r with
      | some why => .refused why
      | none => .next (extract r s)

/-- `SYNC.RST` (R147): a new receive session at offset 0; a partial payload is dropped (R149). -/
def execSyncRst (s : State) : Host.Outcome State Fault Refusal :=
  whenConfigured s <|
    .next ({ s with xs := .searching, remaining := 0, absPos := 0, partialPayload := [] }.answer { err := .ok })

end Sys2Proof.Machine
end

