-- ==== Sys2Proof/Machine/Dispatch.lean ====
section
/-! DEFINITION. One arm per row of the opcode map (spec/30_encoding.md R77). -/

namespace Sys2Proof.Machine

def exec (i : Instr) (s : State) : Host.Outcome State Fault Refusal :=
  match i with
  | .enc data => Sys2Proof.Machine.execEnc data s
  | .dec data => Sys2Proof.Machine.execDec data s
  | .encRst => Sys2Proof.Machine.execEncRst s
  | .decRst => Sys2Proof.Machine.execDecRst s
  | .syncStep r => Sys2Proof.Machine.execSyncStep r s
  | .syncRst => Sys2Proof.Machine.execSyncRst s
  | .cfg r => Sys2Proof.Machine.execCfg r s

end Sys2Proof.Machine
end

