-- ==== Sys2Proof/Machine/Step.lean ====
section
/-! DEFINITION. One step: the block takes the host's next act (spec/20_memory.md R60, spec/60_exceptions.md R193). -/

namespace Sys2Proof.Machine

/-- One operation (R193): an illegal word is answered `ILLEGAL_OP` in every mode (R79, R80), an instruction is executed.
A command whose operands the ports cannot carry is refused (R82, R83). -/
def operate (c : Command) (s : State) : Host.Outcome State Fault Refusal :=
  match decode c with
  | .error _ => raiseErr .illegalOp s
  | .ok i => if i.wf s.params then exec i s else .refused .notPresentable

/-- One step takes the host's next act; with none pending the block holds its state (R203, R222). -/
def step (s : State) : Host.Outcome State Fault Refusal :=
  match s.pending with
  | [] => .next s
  | act :: rest =>
    let s := { s with pending := rest }
    match act with
    | .command c => operate c s
    | .reset => .next (hardwareReset s)
    | .write base bytes => .next (hostWrite base bytes s)

/-- The state in which the host's next act is to issue a word of the opcode table. -/
def State.withFetchWord (s : State) (nbits w : Nat) : State :=
  { s with pending := .command (tableCommand nbits w) :: s.pending }

end Sys2Proof.Machine
end

