-- ==== Sys2Proof/Safety.lean ====
section
/-! DEFINITION. The invariants of the machine, the duties of the host, and what a run delivers
(spec/10_state.md R32, spec/70_reset_and_hazards.md R226 to R229, spec/41_sync_extractor.md R148 to R152,
spec/40_line_codec.md R105 to R109). -/

namespace Sys2Proof.Machine

/-- Every register of R20 holds its reset value, and `partial` and `payloads` are empty (R220). -/
def State.AtReset (s : State) : Prop :=
  s.mode = .unconfigured ∧ s.cfgM = 0 ∧ s.cfgK = 0 ∧ s.cfgP = 0 ∧ s.cfgKind = 0 ∧ s.cfgPattern = ⟨0, 0⟩ ∧
    s.encPrev = 0 ∧ s.decPrev = 0 ∧ s.xs = .searching ∧ s.remaining = 0 ∧ s.absPos = 0 ∧
    s.lastErr = .ok ∧ s.fatalCode = .ok ∧ s.partialPayload = [] ∧ s.payloads = []

/-- The invariants of R32, with the ones R22, R29, R54, R148 and the canonical form of memory add. -/
structure State.Inv (s : State) : Prop where
  /-- `M = 2^K` with `1 <= K <= 8` (R71, R171, R175). -/
  alphabet : s.mode = .configured →
    1 ≤ s.cfgK.toNat ∧ s.cfgK.toNat ≤ 8 ∧ s.cfgM.toNat = 2 ^ s.cfgK.toNat
  /-- `packetLength >= 1` (R171). -/
  packet : s.mode = .configured → 1 ≤ s.cfgP
  /-- `enc_prev < M` and `dec_prev < M` (R32). -/
  symbols : s.mode = .configured → s.encPrev.toNat < s.cfgM.toNat ∧ s.decPrev.toNat < s.cfgM.toNat
  /-- Searching: nothing remains and nothing is gathered (R32, R148). -/
  searching : s.xs = .searching → s.remaining = 0 ∧ s.partialPayload = []
  /-- Copying: `1 <= remaining <= P` and the rest of the payload is gathered (R32, R148). -/
  copying : s.xs = .copying →
    1 ≤ s.remaining ∧ s.remaining ≤ s.cfgP ∧ s.partialPayload.length = s.cfgP - s.remaining
  /-- Outside Configured the codec and the extractor are at rest (R32). -/
  atRest : s.mode ≠ .configured →
    s.encPrev = 0 ∧ s.decPrev = 0 ∧ s.xs = .searching ∧ s.remaining = 0 ∧ s.absPos = 0
  /-- Outside Configured the configuration registers hold their reset values and nothing was delivered (R22, R173). -/
  blank : s.mode ≠ .configured →
    s.cfgM = 0 ∧ s.cfgK = 0 ∧ s.cfgP = 0 ∧ s.cfgKind = 0 ∧ s.cfgPattern = ⟨0, 0⟩ ∧ s.payloads = []
  /-- `mode = Fatal` if and only if `fatal_code != 0` (R32). -/
  fatal : s.mode = .fatal ↔ s.fatalCode ≠ .ok
  /-- `fatal_code` is 0 or the code of a configuration error (R29). -/
  fatalCode : s.fatalCode = .ok ∨ s.fatalCode = .cfgBadM ∨ s.fatalCode = .cfgBadPlen
  /-- Each element of `payloads` has exactly `P` bytes (R148). -/
  payloads : ∀ p ∈ s.payloads, p.length = s.cfgP
  /-- The configuration fits its registers (R20). -/
  widths : s.cfgP < 2 ^ s.params.plenWidth ∧ s.cfgKind < 2 ^ s.params.kindWidth ∧
    s.cfgPattern.bits < 2 ^ s.params.patternMax
  /-- `abs_pos` fits its register (R20, R54). -/
  offset : s.absPos < 2 ^ s.params.offsetWidth
  /-- Memory is in canonical form. -/
  memory : s.mem.wf

/-- A `SYNC.STEP` that is performed: Configured mode, within its bounds (R132), its buffers as the host owes them (R59, R228). -/
structure StepReady (s : State) (r : StepRecord) : Prop where
  configured : s.mode = .configured
  window : r.window.len ≤ s.params.maxWindow
  events : r.events.length ≤ s.params.maxEvents
  outcap : r.out.len ≤ s.params.maxOutcap
  offset : s.absPos + r.window.len ≤ 2 ^ s.params.offsetWidth - 1
  disjoint : ∀ i < r.window.len, ∀ j < r.out.len, r.window.base + i ≠ r.out.base + j
  readable : ∀ i < r.window.len, (s.mem.read (r.window.base + i)).isSome
  writable : ∀ j < r.out.len, (s.mem.read (r.out.base + j)).isSome

/-- `e` is a valid event of the window and no valid event of the list has a lesser offset (R134, R136). -/
def IsPicked (s : State) (r : StepRecord) (e : SyncEvent) : Prop :=
  e ∈ r.events ∧ (e.kind = s.cfgKind ∧ s.absPos ≤ e.offset ∧ e.offset < s.absPos + r.window.len) ∧
    ∀ e' ∈ r.events, e'.kind = s.cfgKind → s.absPos ≤ e'.offset → e'.offset < s.absPos + r.window.len →
      e.offset ≤ e'.offset

/-- `t` is `s` after a copy that starts at a local cursor with `left` bytes of the payload to go (R139 to R142, R145, R146, R148).
`c` bytes move: `out[k]` is `in[cursor + k]` for every `k < c` and every other byte of memory is as before.
Every field that is not named keeps its value. -/
def CopyOutcome (s : State) (r : StepRecord) (cursor left : Nat) (detected : Option Nat) (t : State) : Prop :=
  ∃ (c : Nat) (m : Memory) (moved : List Byte),
    c = min (r.window.len - cursor) (min left r.out.len) ∧
    (∀ k < c, m.read (r.out.base + k) = s.mem.read (r.window.base + cursor + k)) ∧
    (∀ a, (∀ k < c, a ≠ r.out.base + k) → m.read a = s.mem.read a) ∧
    moved.length = c ∧ (∀ k < c, moved[k]? = s.mem.read (r.window.base + cursor + k)) ∧
    (left = c → t =
      { s with
        mem := m, xs := .searching, remaining := 0, absPos := s.absPos + (cursor + c)
        partialPayload := [], payloads := s.payloads ++ [s.partialPayload ++ moved]
        lastErr := .ok
        resp := some { err := .ok, consumed := cursor + c, produced := c, payloadDone := true,
                       detectValid := detected.isSome, detectOffset := detected.getD 0 } }) ∧
    (left ≠ c → t =
      { s with
        mem := m, xs := .copying, remaining := left - c, absPos := s.absPos + (cursor + c)
        partialPayload := s.partialPayload ++ moved
        lastErr := .ok
        resp := some { err := .ok, consumed := cursor + c, produced := c, payloadDone := false,
                       detectValid := detected.isSome, detectOffset := detected.getD 0 } })

/-- Map the next state of an outcome. -/
def mapNext (f : State → State) :
    Host.Outcome State Fault Refusal → Host.Outcome State Fault Refusal
  | .next t => .next (f t)
  | .fault e => .fault e
  | .refused e => .refused e

/-- Put other values into the encoder's unit (R8). -/
def State.withEnc (p : Byte) (s : State) : State := { s with encPrev := p }

/-- Put other values into the decoder's unit (R8). -/
def State.withDec (p : Byte) (s : State) : State := { s with decPrev := p }

/-- Put other values into the extractor's unit (R8) and its observation state (R33). -/
def State.withSx (x : ExtractState) (left pos : Nat) (part : List Byte) (done : List (List Byte)) (s : State) : State :=
  { s with xs := x, remaining := left, absPos := pos, partialPayload := part, payloads := done }

/-- Issue `op` once per group, each time on the state the one before left, and collect the `data` answers.
`none` when an operation answers an error or stops. -/
def codecRun (op : Byte → Instr) : List Byte → State → Option (List Byte × State)
  | [], s => some ([], s)
  | b :: bs, s =>
    match exec (op b) s with
    | .next t =>
      match t.resp with
      | some r =>
        if r.err = .ok then (codecRun op bs t).map (fun out => (r.data :: out.1, out.2)) else none
      | none => none
    | _ => none

/-- Rotation of a symbol index by `r`: `s -> (s + r) mod M` (R11, R110). -/
def rotate (m r : Nat) (b : Byte) : Byte := BitVec.ofNat 8 ((b.toNat + r) % m)

/-- One delivery of the host: its memory when it issues the `SYNC.STEP`, and the operand record. -/
structure Delivery where
  mem : Memory
  record : StepRecord
  deriving DecidableEq, Repr

/-- One `SYNC.STEP` on a delivery; `none` when it answers an error or is refused. -/
def deliver (d : Delivery) (s : State) : Option State :=
  match exec (.syncStep d.record) { s with mem := d.mem } with
  | .next t => if t.lastErr = .ok then some t else none
  | _ => none

/-- The states after each `SYNC.STEP` of a run, `none` when one of them fails. -/
def deliveries : List Delivery → State → Option (List State)
  | [], _ => some []
  | d :: ds, s =>
    match deliver d s with
    | some t => (deliveries ds t).map (fun states => t :: states)
    | none => none

/-- The state after a run that left the listed states. -/
def lastState (s : State) (states : List State) : State := states.getLastD s

/-- The event offsets at which a run started Copying sessions, in order (R146). -/
def detections (states : List State) : List Nat :=
  states.filterMap (fun t =>
    match t.resp with
    | some r => if r.detectValid then some r.detectOffset else none
    | none => none)

/-- The host's duties for one delivery of the stream `S` with events `E` (R226, R227, R152); a premise of a run, not a refusal (log entry 9).
The window is a prefix of `S` from `abs_pos` on, and of the events whose offset lies in it the list holds exactly those of `E`. -/
def FaithfulDelivery (S : List Byte) (E : List SyncEvent) (s : State) (d : Delivery) : Prop :=
  s.absPos + d.record.window.len ≤ S.length ∧
    (∀ i < d.record.window.len, d.mem.read (d.record.window.base + i) = S[s.absPos + i]?) ∧
    ∀ e : SyncEvent, s.absPos ≤ e.offset → e.offset < s.absPos + d.record.window.len → (e ∈ d.record.events ↔ e ∈ E)

/-- Every delivery of a run is faithful in the state it is made in. -/
def FaithfulRun (S : List Byte) (E : List SyncEvent) : State → List Delivery → List State → Prop
  | s, d :: ds, t :: ts => FaithfulDelivery S E s d ∧ FaithfulRun S E t ds ts
  | _, _, _ => True

/-- The loop of `Extract` (R152) from a position on, with fuel for its passes. -/
def extractFrom (S : List Byte) (E : List SyncEvent) (kind len : Nat) : Nat → Nat → List (List Byte)
  | 0, _ => []
  | fuel + 1, pos =>
    match leastOffset (E.filter (fun e => decide (e.kind = kind ∧ pos ≤ e.offset ∧ e.offset < S.length))) with
    | none => []
    | some t =>
      if t + len > S.length then []
      else (S.drop t).take len :: extractFrom S E kind len fuel (t + len)

/-- `Extract(S, E)` (R152) for `MATCH_KIND = kind` and `P = len >= 1`: each pass moves on by at least one byte. -/
def extractAll (S : List Byte) (E : List SyncEvent) (kind len : Nat) : List (List Byte) :=
  extractFrom S E kind len (S.length + 1) 0

end Sys2Proof.Machine
end

