-- ==== Sys2Proof/Certificates/Slice0/Obligations.lean ====
section
/-! DEFINITION. The statements for the provers.

`s.answer r` is `s` with `last_err` set to `r.err` and the response port set to `r`, every other field as before.
A statement that assumes `s.Inv` would be false only in states that `Obligations.StepKeepsInvariants` rules out.
`s.params.startAfterMatch = false` is the spec's own reading (D12); `Obligations.StartAfterMatchSwitch` is the other value (I17). -/

open Sys2Proof Sys2Proof.Machine

/-! ## Reset, invariants, decoding, stepping -/

/-- R220: the hardware reset input sets every register of R20 to its reset value and empties `partial` and `payloads`.
The state after reset has the same values. -/
def Obligations.HardwareResetSetsResetTable : Prop :=
  State.reset.AtReset ∧
    ∀ (s : State) (rest : List HostInput), s.pending = .reset :: rest →
      ∃ t, step s = .next t ∧ t.AtReset

/-- The model's choice (log entries 2, 3 and 5): a hardware reset keeps the host's memory, its later acts and the build parameters
and clears the response port; a host write changes only memory, and there exactly the bytes written. -/
def Obligations.HostActsTouchOnlyHostSide : Prop :=
  ∀ (s : State) (rest : List HostInput),
    (s.pending = .reset :: rest → ∃ t, step s = .next t ∧
      t.resp = none ∧ t.mem = s.mem ∧ t.pending = rest ∧ t.params = s.params) ∧
    ∀ (base : Nat) (bytes : List Byte), s.pending = .write base bytes :: rest →
      ∃ m, step s = .next { s with pending := rest, mem := m } ∧
        (∀ k < bytes.length, m.read (base + k) = bytes[k]?) ∧
        ∀ a, (∀ k < bytes.length, a ≠ base + k) → m.read a = s.mem.read a

/-- The invariants of R32 (and those of R22, R29, R54, R148 in `State.Inv`) hold after reset. -/
def Obligations.ResetSatisfiesInvariants : Prop := State.reset.Inv

/-- R32: every step, of an operation, a hardware reset or a host write, keeps the invariants. -/
def Obligations.StepKeepsInvariants : Prop :=
  ∀ s t : State, s.Inv → step s = .next t → t.Inv

/-- Decode and encode agree on every instruction with every operand, and the decoder accepts no other word (R76 to R81). -/
def Obligations.DecodeEncodeAgree : Prop :=
  (∀ i : Instr, decode (encode i) = .ok i) ∧
    ∀ (c : Command) (i : Instr), decode c = .ok i ↔
      c.word = (encode i).word ∧ (∀ r, i = .syncStep r → c.step = r) ∧ (∀ r, i = .cfg r → c.cfg = r)

/-- Words written out from the opcode map (R77) decode to the instructions they stand for. -/
def Obligations.SampleWordsDecode : Prop :=
  decode (.ofWord 0b0001_0000_0000_0011) = .ok (.enc 3) ∧
    decode (.ofWord 0b0010_0000_0000_0010) = .ok (.dec 2) ∧
    decode (.ofWord 0b0011_0000_0000_0000) = .ok .encRst ∧
    decode (.ofWord 0b0100_0000_0000_0000) = .ok .decRst ∧
    decode (.ofWord 0b0101_0000_0000_0000) = .ok (.syncStep .zero) ∧
    decode (.ofWord 0b0110_0000_0000_0000) = .ok .syncRst ∧
    decode (.ofWord 0b0111_0000_0000_0000) = .ok (.cfg .zero)

/-- R81, both stages: for `M = 4` (`K = 2`) the legal words are exactly the thirteen the rule lists. -/
def Obligations.LegalWordsForFourSymbols : Prop :=
  ∀ c : Command, (∃ i, decode c = .ok i ∧ decodeWidth 2 i = .ok i) ↔
    c.word.toNat ∈ [0x1000, 0x1001, 0x1002, 0x1003, 0x2000, 0x2001, 0x2002, 0x2003,
      0x3000, 0x4000, 0x5000, 0x6000, 0x7000]

/-- A step runs the decoded instruction: where the host's next act is a command that decodes to a well-formed instruction,
the step is `exec` of it on the state with that act taken. -/
def Obligations.StepRunsDecodedInstruction : Prop :=
  ∀ (s : State) (c : Command) (rest : List HostInput) (i : Instr),
    s.pending = .command c :: rest → decode c = .ok i → i.wf s.params = true →
      step s = exec i { s with pending := rest }

/-- R203: between operations the block holds its state and does nothing. -/
def Obligations.IdleBlockHoldsState : Prop :=
  ∀ s : State, s.pending = [] → step s = .next s

/-! ## Errors and modes -/

/-- R79, R80: a word with a reserved field or a reserved opcode is answered `ILLEGAL_OP` in every mode
and changes no state but `last_err`. -/
def Obligations.ReservedWordsAnswerIllegalOp : Prop :=
  ∀ (s : State) (c : Command) (rest : List HostInput), s.pending = .command c :: rest →
    (rsvField c.word ≠ 0 ∨ opField c.word = 0x0 ∨ 0x8 ≤ (opField c.word).toNat) →
      step s = .next { s with pending := rest, lastErr := .illegalOp, resp := some { err := .illegalOp } }

/-- R78: an `ENC` or `DEC` whose `data[7:K]` is not 0 is answered `ILLEGAL_OP` and changes nothing but `last_err`;
with `data[7:K] = 0` the operand is `data` itself, below `M`, and the operation answers `OK`;
every other operation with `data != 0` is answered `ILLEGAL_OP`. -/
def Obligations.OperandBitsOutsideGroupAreIllegal : Prop :=
  (∀ (s : State) (data : Byte), s.Inv → s.mode = .configured →
    (data >>> s.cfgK.toNat ≠ 0 →
      exec (.enc data) s = .next (s.answer { err := .illegalOp }) ∧
      exec (.dec data) s = .next (s.answer { err := .illegalOp })) ∧
    (data >>> s.cfgK.toNat = 0 →
      data.toNat < s.cfgM.toNat ∧
      (∃ t d, exec (.enc data) s = .next t ∧ t.resp = some { err := .ok, data := d } ∧
        d.toNat = (s.encPrev.toNat + data.toNat) % s.cfgM.toNat) ∧
      (∃ t d, exec (.dec data) s = .next t ∧ t.resp = some { err := .ok, data := d } ∧ t.decPrev = data))) ∧
  ∀ (s : State) (c : Command), 0x3 ≤ (opField c.word).toNat → dataField c.word ≠ 0 →
    operate c s = .next (s.answer { err := .illegalOp })

/-- R193: the checks run in the order the rule lists; the first that fires gives the error, and when none does the operation is performed. -/
def Obligations.ChecksRunInOrder : Prop :=
  ∀ (c : Command) (s : State),
    (∀ e, decode c = .error e → operate c s = .next (s.answer { err := .illegalOp })) ∧
    ∀ i, decode c = .ok i → i.wf s.params = true →
      (s.mode = .fatal → operate c s = .next (s.answer { err := .fatal })) ∧
      (s.mode = .unconfigured → (∀ r, i ≠ .cfg r) → operate c s = .next (s.answer { err := .notConfigured })) ∧
      (∀ r, i = .cfg r → s.mode = .configured → operate c s = .next (s.answer { err := .cfgLocked })) ∧
      (s.mode = .configured → (∀ r, i ≠ .cfg r) → ∀ e, decodeWidth s.cfgK.toNat i = .error e →
        operate c s = .next (s.answer { err := .illegalOp })) ∧
      (∀ r, i = .cfg r → s.mode = .unconfigured →
        ((¬ ∃ k, 1 ≤ k ∧ k ≤ 8 ∧ r.m.toNat = 2 ^ k) →
          operate c s = .next ({ s with mode := .fatal, fatalCode := .cfgBadM }.answer { err := .cfgBadM })) ∧
        ((∃ k, 1 ≤ k ∧ k ≤ 8 ∧ r.m.toNat = 2 ^ k) → r.plen = 0 →
          operate c s = .next ({ s with mode := .fatal, fatalCode := .cfgBadPlen }.answer { err := .cfgBadPlen }))) ∧
      (∀ r, i = .syncStep r → s.mode = .configured →
        (s.params.maxWindow < r.window.len ∨ s.params.maxEvents < r.events.length ∨ s.params.maxOutcap < r.out.len →
          operate c s = .next (s.answer { err := .windowLimit })) ∧
        (r.window.len ≤ s.params.maxWindow → r.events.length ≤ s.params.maxEvents →
          r.out.len ≤ s.params.maxOutcap → 2 ^ s.params.offsetWidth - 1 < s.absPos + r.window.len →
          operate c s = .next (s.answer { err := .offsetOverflow }))) ∧
      ((s.mode = .configured ∧ (∀ r, i ≠ .cfg r) ∧ decodeWidth s.cfgK.toNat i = .ok i ∧
          (∀ r, i = .syncStep r → r.window.len ≤ s.params.maxWindow ∧ r.events.length ≤ s.params.maxEvents ∧
            r.out.len ≤ s.params.maxOutcap ∧ s.absPos + r.window.len ≤ 2 ^ s.params.offsetWidth - 1) ∨
        s.mode = .unconfigured ∧ ∃ r, i = .cfg r ∧ (∃ k, 1 ≤ k ∧ k ≤ 8 ∧ r.m.toNat = 2 ^ k) ∧ 1 ≤ r.plen) →
        operate c s = exec i s ∧ ∀ t, operate c s = .next t → t.lastErr = .ok)

/-- R21, R194: in Unconfigured mode only `CFG` is performed, in Fatal mode nothing is performed, in Configured mode
everything but `CFG` is performed.
Performed means that the answer is none of `NOT_CONFIGURED`, `FATAL` and `CFG_LOCKED`;
one not performed changes nothing but `last_err`.
The mode changes only by a `CFG` in Unconfigured mode, to Configured when it succeeds and to Fatal when it fails,
and by the hardware reset, which leads to Unconfigured. -/
def Obligations.ModeGatesOperations : Prop :=
  (∀ (i : Instr) (s : State),
    (s.mode = .fatal → exec i s = .next (s.answer { err := .fatal })) ∧
    (s.mode = .unconfigured → (∀ r, i ≠ .cfg r) → exec i s = .next (s.answer { err := .notConfigured })) ∧
    (s.mode = .configured → (∃ r, i = .cfg r) → exec i s = .next (s.answer { err := .cfgLocked })) ∧
    ((s.mode = .unconfigured ∧ (∃ r, i = .cfg r) ∨ s.mode = .configured ∧ (∀ r, i ≠ .cfg r)) →
      ∀ t, exec i s = .next t →
        t.lastErr ≠ .fatal ∧ t.lastErr ≠ .notConfigured ∧ t.lastErr ≠ .cfgLocked)) ∧
  ∀ s t : State, step s = .next t → t.mode ≠ s.mode →
    (t.mode = .unconfigured ∧ ∃ rest, s.pending = .reset :: rest) ∨
    (s.mode = .unconfigured ∧ (t.mode = .configured ↔ t.lastErr = .ok) ∧ (t.mode = .fatal ↔ t.lastErr ≠ .ok) ∧
      ∃ c rest r, s.pending = .command c :: rest ∧ decode c = .ok (.cfg r))

/-- The column "written by" of R20, for every register that not every operation writes (`last_err` is the one that every
operation writes): an operation that changes a register is one of those the table lists for it, and it succeeded
(failed, for `fatal_code`; `CFG` in Unconfigured mode either way, for `mode`).
`partial` and `payloads` are those of R33 and R148.
The rest is the model's choice: memory, which changes only by `SYNC.STEP`, is that of log entry 2; that no operation changes
the acts still to come is log entry 3, and that none changes the build parameters is log entry 6. -/
def Obligations.RegistersChangeOnlyByTheirWriters : Prop :=
  ∀ (c : Command) (s t : State), operate c s = .next t →
    (t.mode ≠ s.mode → s.mode = .unconfigured ∧ ∃ r, decode c = .ok (.cfg r)) ∧
    (t.encPrev ≠ s.encPrev → t.lastErr = .ok ∧
      ∃ i, decode c = .ok i ∧ ((∃ b, i = .enc b) ∨ i = .encRst ∨ ∃ r, i = .cfg r)) ∧
    (t.decPrev ≠ s.decPrev → t.lastErr = .ok ∧
      ∃ i, decode c = .ok i ∧ ((∃ b, i = .dec b) ∨ i = .decRst ∨ ∃ r, i = .cfg r)) ∧
    (t.xs ≠ s.xs ∨ t.remaining ≠ s.remaining ∨ t.absPos ≠ s.absPos ∨ t.partialPayload ≠ s.partialPayload →
      t.lastErr = .ok ∧ ∃ i, decode c = .ok i ∧ ((∃ r, i = .syncStep r) ∨ i = .syncRst ∨ ∃ r, i = .cfg r)) ∧
    (t.mem ≠ s.mem ∨ t.payloads ≠ s.payloads → t.lastErr = .ok ∧ ∃ r, decode c = .ok (.syncStep r)) ∧
    (t.cfgM ≠ s.cfgM ∨ t.cfgK ≠ s.cfgK ∨ t.cfgP ≠ s.cfgP ∨ t.cfgKind ≠ s.cfgKind ∨ t.cfgPattern ≠ s.cfgPattern →
      t.lastErr = .ok ∧ s.mode = .unconfigured ∧ ∃ r, decode c = .ok (.cfg r)) ∧
    (t.fatalCode ≠ s.fatalCode →
      t.lastErr ≠ .ok ∧ t.mode = .fatal ∧ s.mode = .unconfigured ∧ ∃ r, decode c = .ok (.cfg r)) ∧
    t.pending = s.pending ∧ t.params = s.params

/-- R192: an operation that answers an error changes no state but `last_err`, a failed `CFG` also `mode` and `fatal_code`;
the response has every field but `err` equal to 0. -/
def Obligations.ErrorsChangeOnlyLastErr : Prop :=
  ∀ (c : Command) (s t : State), operate c s = .next t → t.lastErr ≠ .ok →
    t.resp = some { err := t.lastErr } ∧
    (t.lastErr ≠ .cfgBadM → t.lastErr ≠ .cfgBadPlen → t = s.answer { err := t.lastErr }) ∧
    (t.lastErr = .cfgBadM ∨ t.lastErr = .cfgBadPlen →
      t = { s with mode := .fatal, fatalCode := t.lastErr }.answer { err := t.lastErr })

/-- From R28 and R191: every operation answers with one response, error or not, whose code it writes to `last_err`;
none is dropped in silence and none faults.
The refusals are the model's, not those rules': R59 and R228 say that a model refuses a `SYNC.STEP` with a broken buffer duty,
under names and in an order that are the model's choice (log entries 2 and 8), and that an operand no port can carry
is refused is deduced from R73, R82 and R83 (log entry 4).
Each refusal comes only where its duty is broken.
That neither the response nor `last_err` of the operation before is read or kept rests, for the response, on the model's port
(log entry 5). -/
def Obligations.EveryOperationAnswersOnce : Prop :=
  ∀ (c : Command) (s : State),
    ((∃ t r, operate c s = .next t ∧ t.resp = some r ∧ t.lastErr = r.err) ∨
      (operate c s = .refused .notPresentable ∧ ∃ i, decode c = .ok i ∧ i.wf s.params = false) ∨
      ∃ r, decode c = .ok (.syncStep r) ∧ s.mode = .configured ∧
        ((operate c s = .refused .bufferOverlap ∧
            ∃ i < r.window.len, ∃ j < r.out.len, r.window.base + i = r.out.base + j) ∨
          (operate c s = .refused .windowUnreadable ∧ ∃ i < r.window.len, s.mem.read (r.window.base + i) = none) ∨
          (operate c s = .refused .outputUnwritable ∧ ∃ j < r.out.len, s.mem.read (r.out.base + j) = none))) ∧
    ∀ (e : ErrCode) (r : Option Response), operate c { s with lastErr := e, resp := r } = operate c s

/-- R205: once Fatal, no operation changes any state but `last_err` and the response until hardware reset,
over any number of steps.
Host memory changes only by the host's own writes, and the acts taken leave the pending list. -/
def Obligations.FatalIsStickyUntilReset : Prop :=
  ∀ (k : Nat) (s t : State), s.mode = .fatal → .reset ∉ s.pending → Host.Core.run core k s = .next t →
    t = { s with lastErr := t.lastErr, resp := t.resp, mem := t.mem, pending := t.pending } ∧
      ((∀ base bytes, .write base bytes ∉ s.pending) → t.mem = s.mem)

/-- R174: `CFG` in Configured mode answers `CFG_LOCKED` and changes nothing but `last_err`, in Fatal mode `FATAL`,
and the configuration is written at most once between hardware resets:
from a Configured state it stays the same over any number of steps without a reset. -/
def Obligations.ConfigurationIsImmutable : Prop :=
  (∀ (r : CfgRecord) (s : State),
    (s.mode = .configured → exec (.cfg r) s = .next (s.answer { err := .cfgLocked })) ∧
    (s.mode = .fatal → exec (.cfg r) s = .next (s.answer { err := .fatal }))) ∧
  ∀ (k : Nat) (s t : State), s.mode = .configured → .reset ∉ s.pending → Host.Core.run core k s = .next t →
    t.mode = .configured ∧ t.cfgM = s.cfgM ∧ t.cfgK = s.cfgK ∧ t.cfgP = s.cfgP ∧ t.cfgKind = s.cfgKind ∧
      t.cfgPattern = s.cfgPattern ∧ t.fatalCode = s.fatalCode

/-- R176: `cfg_pattern` shows in its status output and nowhere else, and no operation reads it: with another pattern stored, every operation but a successful `CFG`,
which overwrites it, gives the same outcome with that pattern in place. -/
def Obligations.PatternIsNeverRead : Prop :=
  ∀ (s : State) (p : SyncPattern),
    statusOutput 0x5 { s with cfgPattern := p } = p.len.toNat * 2 ^ s.params.patternMax + p.bits ∧
    (∀ number : BitVec 4, number ≠ 0x5 → statusOutput number { s with cfgPattern := p } = statusOutput number s) ∧
    ∀ i : Instr, (s.mode = .unconfigured → (∀ r, i ≠ .cfg r)) →
      exec i { s with cfgPattern := p } = mapNext (fun t => { t with cfgPattern := p }) (exec i s)

/-- R8: the units' states are disjoint; no operation of one unit reads or writes the state of another.
Each line says that other values in another unit change nothing but themselves. -/
def Obligations.UnitsAreIsolated : Prop :=
  ∀ (s : State) (i : Instr) (p : Byte) (x : ExtractState) (left pos : Nat) (part : List Byte) (done : List (List Byte)),
    ((∃ data, i = .enc data) ∨ i = .encRst →
      exec i (s.withDec p) = mapNext (State.withDec p) (exec i s) ∧
      exec i (s.withSx x left pos part done) = mapNext (State.withSx x left pos part done) (exec i s)) ∧
    ((∃ data, i = .dec data) ∨ i = .decRst →
      exec i (s.withEnc p) = mapNext (State.withEnc p) (exec i s) ∧
      exec i (s.withSx x left pos part done) = mapNext (State.withSx x left pos part done) (exec i s)) ∧
    ((∃ r, i = .syncStep r) ∨ i = .syncRst →
      exec i (s.withEnc p) = mapNext (State.withEnc p) (exec i s) ∧
      exec i (s.withDec p) = mapNext (State.withDec p) (exec i s))

/-! ## Line codec -/

/-- R101, whole: the encoding, the result `(enc_prev + b) mod M`, what is written and the frame, the errors, and `b = 0`. -/
def Obligations.EncEncodesDifferentially : Prop :=
  ∀ (s : State) (b : Byte), s.Inv →
    (encode (.enc b)).word = 0x1000 + b.setWidth 16 ∧
    (s.mode = .configured → b.toNat < 2 ^ s.cfgK.toNat →
      ∃ cur : Byte, cur.toNat = (s.encPrev.toNat + b.toNat) % s.cfgM.toNat ∧
        exec (.enc b) s =
          .next { s with encPrev := cur, lastErr := .ok, resp := some { err := .ok, data := cur } } ∧
        (b = 0 → cur = s.encPrev)) ∧
    (s.mode = .configured → 2 ^ s.cfgK.toNat ≤ b.toNat → exec (.enc b) s = .next (s.answer { err := .illegalOp })) ∧
    (s.mode = .unconfigured → exec (.enc b) s = .next (s.answer { err := .notConfigured })) ∧
    (s.mode = .fatal → exec (.enc b) s = .next (s.answer { err := .fatal }))

/-- R102, whole: the encoding, the result `(s - dec_prev) mod M`, that the received symbol is kept, the frame, the errors,
`s = dec_prev` and the first group after a reset (R107). -/
def Obligations.DecDecodesDifferentially : Prop :=
  ∀ (s : State) (sym : Byte), s.Inv →
    (encode (.dec sym)).word = 0x2000 + sym.setWidth 16 ∧
    (s.mode = .configured → sym.toNat < 2 ^ s.cfgK.toNat →
      ∃ d : Byte, (d.toNat : Int) = ((sym.toNat : Int) - (s.decPrev.toNat : Int)) % (s.cfgM.toNat : Int) ∧
        exec (.dec sym) s =
          .next { s with decPrev := sym, lastErr := .ok, resp := some { err := .ok, data := d } } ∧
        (sym = s.decPrev → d = 0) ∧ (s.decPrev = 0 → d = sym)) ∧
    (s.mode = .configured → 2 ^ s.cfgK.toNat ≤ sym.toNat →
      exec (.dec sym) s = .next (s.answer { err := .illegalOp })) ∧
    (s.mode = .unconfigured → exec (.dec sym) s = .next (s.answer { err := .notConfigured })) ∧
    (s.mode = .fatal → exec (.dec sym) s = .next (s.answer { err := .fatal }))

/-- R103, R104, whole: each codec reset clears its own register and nothing else; its encoding and its errors. -/
def Obligations.CodecResetsClearOneRegister : Prop :=
  (encode .encRst).word = 0x3000 ∧ (encode .decRst).word = 0x4000 ∧
  ∀ s : State,
    (s.mode = .configured →
      exec .encRst s = .next { s with encPrev := 0, lastErr := .ok, resp := some { err := .ok } } ∧
      exec .decRst s = .next { s with decPrev := 0, lastErr := .ok, resp := some { err := .ok } }) ∧
    (s.mode = .unconfigured →
      exec .encRst s = .next (s.answer { err := .notConfigured }) ∧
      exec .decRst s = .next (s.answer { err := .notConfigured })) ∧
    (s.mode = .fatal →
      exec .encRst s = .next (s.answer { err := .fatal }) ∧ exec .decRst s = .next (s.answer { err := .fatal })) ∧
    ∀ c : Command, opField c.word = 0x3 ∨ opField c.word = 0x4 → dataField c.word ≠ 0 →
      operate c s = .next (s.answer { err := .illegalOp })

/-- R105: for every rotation `r` in `[0, M)` of every symbol, decoding an encoded stream from registers at 0
gives `(b_0 + r) mod M` first and every later group unchanged. -/
def Obligations.RotationCancels : Prop :=
  ∀ (tx rx : State) (b : Byte) (bs : List Byte) (r : Nat), tx.Inv → rx.Inv →
    tx.mode = .configured → rx.mode = .configured → tx.cfgM = rx.cfgM → tx.encPrev = 0 → rx.decPrev = 0 →
    r < tx.cfgM.toNat → (∀ x ∈ b :: bs, x.toNat < tx.cfgM.toNat) →
      ∃ (syms : List Byte) (tx' rx' : State),
        codecRun .enc (b :: bs) tx = some (syms, tx') ∧
        codecRun .dec (syms.map (rotate tx.cfgM.toNat r)) rx =
          some (BitVec.ofNat 8 ((b.toNat + r) % tx.cfgM.toNat) :: bs, rx')

/-- R106: with no rotation the decoder returns exactly the groups the encoder was given, the first included. -/
def Obligations.NoRotationRoundTrip : Prop :=
  ∀ (tx rx : State) (bs : List Byte), tx.Inv → rx.Inv →
    tx.mode = .configured → rx.mode = .configured → tx.cfgM = rx.cfgM → tx.encPrev = 0 → rx.decPrev = 0 →
    (∀ x ∈ bs, x.toNat < tx.cfgM.toNat) →
      ∃ (syms : List Byte) (tx' rx' : State),
        codecRun .enc bs tx = some (syms, tx') ∧ codecRun .dec syms rx = some (bs, rx')

/-- R108: a change of rotation from `r1` to `r2` at index `j >= 1` corrupts only group `j`, to
`(b_j + r2 - r1) mod M`; the first group is `(b_0 + r1) mod M` as in R105. -/
def Obligations.RotationChangeCorruptsOneGroup : Prop :=
  ∀ (tx rx : State) (bs : List Byte) (r1 r2 j : Nat), tx.Inv → rx.Inv →
    tx.mode = .configured → rx.mode = .configured → tx.cfgM = rx.cfgM → tx.encPrev = 0 → rx.decPrev = 0 →
    r1 < tx.cfgM.toNat → r2 < tx.cfgM.toNat → 1 ≤ j → (∀ x ∈ bs, x.toNat < tx.cfgM.toNat) →
      ∃ (syms out : List Byte) (tx' rx' : State),
        codecRun .enc bs tx = some (syms, tx') ∧
        codecRun .dec (syms.mapIdx (fun i x => rotate tx.cfgM.toNat (if i < j then r1 else r2) x)) rx =
          some (out, rx') ∧
        out.length = bs.length ∧
        ∀ (i : Nat) (b d : Byte), bs[i]? = some b → out[i]? = some d →
          (d.toNat : Int) =
            (if i = 0 then (b.toNat : Int) + r1
             else if i = j then (b.toNat : Int) + r2 - r1
             else (b.toNat : Int)) % (tx.cfgM.toNat : Int)

/-- R109: one received symbol wrong by `e != 0` makes its own group wrong by `e` and the next by `-e`; every other group is right. -/
def Obligations.SymbolErrorCorruptsTwoGroups : Prop :=
  ∀ (tx rx : State) (bs : List Byte) (e j : Nat), tx.Inv → rx.Inv →
    tx.mode = .configured → rx.mode = .configured → tx.cfgM = rx.cfgM → tx.encPrev = 0 → rx.decPrev = 0 →
    0 < e → e < tx.cfgM.toNat → (∀ x ∈ bs, x.toNat < tx.cfgM.toNat) →
      ∃ (syms out : List Byte) (tx' rx' : State),
        codecRun .enc bs tx = some (syms, tx') ∧
        codecRun .dec (syms.mapIdx (fun i x => if i = j then rotate tx.cfgM.toNat e x else x)) rx = some (out, rx') ∧
        out.length = bs.length ∧
        ∀ (i : Nat) (b d : Byte), bs[i]? = some b → out[i]? = some d →
          (d.toNat : Int) =
            (if i = j then (b.toNat : Int) + e
             else if i = j + 1 then (b.toNat : Int) - e
             else (b.toNat : Int)) % (tx.cfgM.toNat : Int)

/-! ## Configuration -/

/-- R172: what a legal `CFG` in Unconfigured mode writes, and all it writes.
After hardware reset the codec and extractor assignments change nothing. -/
def Obligations.LegalCfgLoadsConfiguration : Prop :=
  ∀ (s : State) (r : CfgRecord) (k : Nat), s.mode = .unconfigured → 1 ≤ k → k ≤ 8 → r.m.toNat = 2 ^ k → 1 ≤ r.plen →
    exec (.cfg r) s = .next
      { s with
        cfgM := r.m, cfgK := BitVec.ofNat 4 k, cfgP := r.plen, cfgKind := r.kind, cfgPattern := r.pattern
        encPrev := 0, decPrev := 0, xs := .searching, remaining := 0, absPos := 0, mode := .configured
        partialPayload := [], lastErr := .ok, resp := some { err := .ok } } ∧
    (s.Inv → s.encPrev = 0 ∧ s.decPrev = 0 ∧ s.xs = .searching ∧ s.remaining = 0 ∧ s.absPos = 0)

/-- R171, R173: the checks of `CFG` in Unconfigured mode, `M` first; a failed one makes the block Fatal, records its code,
writes no configuration register, and every later operation answers `FATAL`; a legal one answers `OK`,
whatever the kind and the pattern. -/
def Obligations.IllegalCfgIsFatal : Prop :=
  ∀ (s : State) (r : CfgRecord), s.mode = .unconfigured →
    ((¬ ∃ k, 1 ≤ k ∧ k ≤ 8 ∧ r.m.toNat = 2 ^ k) →
      exec (.cfg r) s = .next
        { s with mode := .fatal, fatalCode := .cfgBadM, lastErr := .cfgBadM, resp := some { err := .cfgBadM } }) ∧
    ((∃ k, 1 ≤ k ∧ k ≤ 8 ∧ r.m.toNat = 2 ^ k) → r.plen = 0 →
      exec (.cfg r) s = .next
        { s with
          mode := .fatal, fatalCode := .cfgBadPlen, lastErr := .cfgBadPlen, resp := some { err := .cfgBadPlen } }) ∧
    ((∃ k, 1 ≤ k ∧ k ≤ 8 ∧ r.m.toNat = 2 ^ k) → 1 ≤ r.plen →
      ∃ t, exec (.cfg r) s = .next t ∧ t.lastErr = .ok ∧ t.mode = .configured) ∧
    ∀ t, exec (.cfg r) s = .next t → t.lastErr ≠ .ok → ∀ i, exec i t = .next (t.answer { err := .fatal })

/-! ## Sync frame extractor -/

/-- R132: the operand checks of `SYNC.STEP`, in order, after the mode checks; either error changes only `last_err`. -/
def Obligations.SyncStepOperandChecks : Prop :=
  ∀ (s : State) (r : StepRecord),
    (s.mode = .configured →
      (s.params.maxWindow < r.window.len ∨ s.params.maxEvents < r.events.length ∨ s.params.maxOutcap < r.out.len →
        exec (.syncStep r) s = .next (s.answer { err := .windowLimit })) ∧
      (r.window.len ≤ s.params.maxWindow → r.events.length ≤ s.params.maxEvents → r.out.len ≤ s.params.maxOutcap →
        2 ^ s.params.offsetWidth - 1 < s.absPos + r.window.len →
        exec (.syncStep r) s = .next (s.answer { err := .offsetOverflow }))) ∧
    (s.mode = .unconfigured → exec (.syncStep r) s = .next (s.answer { err := .notConfigured })) ∧
    (s.mode = .fatal → exec (.syncStep r) s = .next (s.answer { err := .fatal }))

/-- R54: a window that would reach past the top of the offset space is refused with `OFFSET_OVERFLOW` and changes nothing,
and `abs_pos` never wraps: an invocation that answers `OK` adds its consumed count to it as an integer and stays in the space. -/
def Obligations.AbsPosNeverWraps : Prop :=
  ∀ (s : State) (r : StepRecord), s.Inv → s.mode = .configured →
    (r.window.len ≤ s.params.maxWindow → r.events.length ≤ s.params.maxEvents → r.out.len ≤ s.params.maxOutcap →
      2 ^ s.params.offsetWidth - 1 < s.absPos + r.window.len →
      exec (.syncStep r) s = .next (s.answer { err := .offsetOverflow })) ∧
    ∀ t a, exec (.syncStep r) s = .next t → t.resp = some a →
      t.absPos = s.absPos + a.consumed ∧ t.absPos < 2 ^ s.params.offsetWidth

/-- From R59 and R228: the model refuses a `SYNC.STEP` whose window and output buffer overlap, and one whose window or
output buffer lacks a byte.
A missing byte is one that the host memory of log entry 2 does not list.
The order is the model's choice (log entry 8): overlap first, then the window, then the output buffer,
after the operand checks and whether or not a byte would be copied. -/
def Obligations.OverlappingBuffersRefused : Prop :=
  ∀ (s : State) (r : StepRecord), s.mode = .configured → r.window.len ≤ s.params.maxWindow →
    r.events.length ≤ s.params.maxEvents → r.out.len ≤ s.params.maxOutcap →
    s.absPos + r.window.len ≤ 2 ^ s.params.offsetWidth - 1 →
    ((∃ i < r.window.len, ∃ j < r.out.len, r.window.base + i = r.out.base + j) →
      exec (.syncStep r) s = .refused .bufferOverlap) ∧
    ((∀ i < r.window.len, ∀ j < r.out.len, r.window.base + i ≠ r.out.base + j) →
      ((∃ i < r.window.len, s.mem.read (r.window.base + i) = none) →
        exec (.syncStep r) s = .refused .windowUnreadable) ∧
      ((∀ i < r.window.len, (s.mem.read (r.window.base + i)).isSome) →
        (∃ j < r.out.len, s.mem.read (r.out.base + j) = none) →
        exec (.syncStep r) s = .refused .outputUnwritable))

/-- R135: Searching with no valid event consumes the whole window, produces nothing and changes nothing else. -/
def Obligations.SearchingWithoutEventConsumesWindow : Prop :=
  ∀ (s : State) (r : StepRecord), s.Inv → StepReady s r → s.xs = .searching →
    (∀ e ∈ r.events, ¬ (e.kind = s.cfgKind ∧ s.absPos ≤ e.offset ∧ e.offset < s.absPos + r.window.len)) →
      exec (.syncStep r) s = .next
        { s with
          absPos := s.absPos + r.window.len, lastErr := .ok
          resp := some { err := .ok, consumed := r.window.len, produced := 0, payloadDone := false, detectValid := false } } ∧
      s.remaining = 0

/-- R136, R139, R140, R141, R142: the result of a `SYNC.STEP` that copies.
Copying goes on from local cursor 0.
Searching with a valid event enters Copying at the byte of the least valid offset with `P` bytes to go.
`CopyOutcome` gives every field after, and every byte of memory. -/
def Obligations.SyncStepCopies : Prop :=
  ∀ (s : State) (r : StepRecord), s.Inv → StepReady s r →
    (s.xs = .copying → ∃ t, exec (.syncStep r) s = .next t ∧ CopyOutcome s r 0 s.remaining none t) ∧
    (s.params.startAfterMatch = false → s.xs = .searching → ∀ e, IsPicked s r e →
      ∃ t, exec (.syncStep r) s = .next t ∧ CopyOutcome s r (e.offset - s.absPos) s.cfgP (some e.offset) t)

/-- I17, with the switch on: validity is unchanged and the copy starts at the byte after the event's byte;
an event at the last byte of the window copies nothing in that invocation, whatever the capacity. -/
def Obligations.StartAfterMatchSwitch : Prop :=
  ∀ (s : State) (r : StepRecord) (e : SyncEvent), s.Inv → StepReady s r → s.params.startAfterMatch = true →
    s.xs = .searching → IsPicked s r e →
      ∃ t, exec (.syncStep r) s = .next t ∧ CopyOutcome s r (e.offset - s.absPos + 1) s.cfgP (some e.offset) t ∧
        (e.offset + 1 = s.absPos + r.window.len → t.xs = .copying ∧ t.remaining = s.cfgP ∧ t.mem = s.mem)

/-- R137: a `SYNC.STEP` that starts in Copying never reads its events,
and one that enters Copying depends on no event but the picked one. -/
def Obligations.EventsWhileCopyingIgnored : Prop :=
  ∀ (s : State) (r : StepRecord) (ev : List SyncEvent),
    r.events.length ≤ s.params.maxEvents → ev.length ≤ s.params.maxEvents →
    (s.xs = .copying → exec (.syncStep { r with events := ev }) s = exec (.syncStep r) s) ∧
    (∀ e, IsPicked s r e → IsPicked s { r with events := ev } e →
      exec (.syncStep { r with events := ev }) s = exec (.syncStep r) s)

/-- R134: an event that is not valid is discarded: a `SYNC.STEP` gives the same outcome without it.
A window with `n = 0` has no valid event. -/
def Obligations.InvalidEventsDiscarded : Prop :=
  ∀ (s : State) (r : StepRecord), r.events.length ≤ s.params.maxEvents →
    exec (.syncStep { r with
      events := r.events.filter (fun e =>
        decide (e.kind = s.cfgKind ∧ s.absPos ≤ e.offset ∧ e.offset < s.absPos + r.window.len)) }) s =
      exec (.syncStep r) s ∧
    (r.window.len = 0 → ∀ e, ¬ IsPicked s r e)

/-- R157: the bounds of the counts of every `SYNC.STEP` that answers `OK`. -/
def Obligations.CountBounds : Prop :=
  ∀ (s t : State) (r : StepRecord) (a : Response), s.Inv → exec (.syncStep r) s = .next t → t.resp = some a →
    a.err = .ok →
      a.consumed ≤ r.window.len ∧ a.produced ≤ min r.out.len s.cfgP ∧ a.produced ≤ a.consumed ∧
        (a.payloadDone = true → 1 ≤ a.produced)

/-- R148: after each `SYNC.STEP` that answers `OK`, `partial` takes the bytes `out[0 .. produced-1]`,
and a completed payload moves to `payloads`; the lengths the rule states hold. -/
def Obligations.PayloadSequence : Prop :=
  (State.reset.partialPayload = [] ∧ State.reset.payloads = []) ∧
  ∀ (s t : State) (r : StepRecord) (a : Response), s.Inv → exec (.syncStep r) s = .next t → t.resp = some a →
    a.err = .ok →
      (∃ bytes : List Byte, bytes.length = a.produced ∧
        (∀ k < a.produced, bytes[k]? = t.mem.read (r.out.base + k)) ∧
        (a.payloadDone = true → t.payloads = s.payloads ++ [s.partialPayload ++ bytes] ∧ t.partialPayload = []) ∧
        (a.payloadDone = false → t.payloads = s.payloads ∧ t.partialPayload = s.partialPayload ++ bytes)) ∧
      (∀ p ∈ t.payloads, p.length = t.cfgP) ∧
      (t.xs = .copying → t.partialPayload.length = t.cfgP - t.remaining) ∧
      (t.xs = .searching → t.partialPayload = [])

/-- R155: an event at the last byte of a window, with capacity and without;
without, the byte comes back at `in[0]` of the next window, where Copying copies it first. -/
def Obligations.EventAtLastByte : Prop :=
  ∀ (s : State) (r : StepRecord) (e : SyncEvent), s.Inv → StepReady s r → s.params.startAfterMatch = false →
    s.xs = .searching → IsPicked s r e → e.offset + 1 = s.absPos + r.window.len →
    (1 ≤ r.out.len → ∃ t a, exec (.syncStep r) s = .next t ∧ t.resp = some a ∧
      t.mem.read r.out.base = s.mem.read (r.window.base + (r.window.len - 1)) ∧
      a.produced = 1 ∧ t.remaining = s.cfgP - 1 ∧ a.consumed = r.window.len ∧
      (s.cfgP = 1 → a.payloadDone = true ∧ t.xs = .searching)) ∧
    (r.out.len = 0 → ∃ t a, exec (.syncStep r) s = .next t ∧ t.resp = some a ∧ t.mem = s.mem ∧
      a.produced = 0 ∧ t.xs = .copying ∧ t.remaining = s.cfgP ∧ a.consumed = r.window.len - 1 ∧
      ∀ (m : Memory) (r' : StepRecord), m.wf → StepReady { t with mem := m } r' → 1 ≤ r'.window.len → 1 ≤ r'.out.len →
        ∃ u, exec (.syncStep r') { t with mem := m } = .next u ∧
          u.mem.read r'.out.base = m.read r'.window.base)

/-- R156: an empty window reports zero counts and changes nothing but `last_err`. -/
def Obligations.EmptyWindowChangesNothing : Prop :=
  ∀ (s : State) (r : StepRecord), s.Inv → StepReady s r → r.window.len = 0 →
    exec (.syncStep r) s = .next
      { s with lastErr := .ok, resp := some { err := .ok, consumed := 0, produced := 0 } }

/-- R154, I14: while Copying, deliveries without output capacity succeed and make no progress, however many come. -/
def Obligations.NoProgressWithoutCapacity : Prop :=
  ∀ (ds : List Delivery) (s : State) (states : List State), s.Inv → s.xs = .copying →
    (∀ d ∈ ds, d.record.out.len = 0) → (∀ d ∈ ds, d.mem.wf) → deliveries ds s = some states →
      (lastState s states).xs = .copying ∧ (lastState s states).remaining = s.remaining ∧
      (lastState s states).absPos = s.absPos ∧ (lastState s states).partialPayload = s.partialPayload ∧
      (lastState s states).payloads = s.payloads

/-- R229: with the host's duty met, a payload completes: while Copying, at most `remaining` deliveries that each hold
a byte and room for one are needed. -/
def Obligations.PayloadCompletesUnderProgress : Prop :=
  ∀ (ds : List Delivery) (s : State) (states : List State), s.Inv → s.xs = .copying →
    (∀ d ∈ ds, 1 ≤ d.record.window.len ∧ 1 ≤ d.record.out.len) → s.remaining ≤ ds.length →
    (∀ d ∈ ds, d.mem.wf) → deliveries ds s = some states →
      ∃ t ∈ states, t.xs = .searching ∧ t.payloads.length = s.payloads.length + 1

/-- R138, R150, R151: along any run of deliveries the Copying sessions start at least `P` bytes apart,
so sessions never overlap and no event starts two. -/
def Obligations.SessionsNeverOverlap : Prop :=
  ∀ (ds : List Delivery) (s : State) (states : List State), s.Inv → s.mode = .configured →
    (∀ d ∈ ds, d.mem.wf) → deliveries ds s = some states →
      (detections states).Pairwise (fun a b => a + s.cfgP ≤ b) ∧
      ∀ a ∈ detections states, s.absPos + s.remaining ≤ a

/-- R152: windowing does not change the payloads: every faithful run from a Searching start at offset 0 that reaches
the end of the stream delivers `Extract(S, E)`, whatever its window lengths and output capacities. -/
def Obligations.WindowingIndependence : Prop :=
  ∀ (S : List Byte) (E : List SyncEvent) (ds : List Delivery) (s : State) (states : List State), s.Inv →
    s.mode = .configured → s.params.startAfterMatch = false → s.xs = .searching → s.absPos = 0 →
    (∀ d ∈ ds, d.mem.wf) → deliveries ds s = some states → FaithfulRun S E s ds states → (lastState s states).absPos = S.length →
      (lastState s states).payloads = s.payloads ++ extractAll S E s.cfgKind s.cfgP

/-- R147, whole: `SYNC.RST` starts a session at offset 0 and touches nothing else; its encoding and its errors.
The partial payload is dropped and never enters `payloads` (R149). -/
def Obligations.SyncRstStartsSession : Prop :=
  (encode .syncRst).word = 0x6000 ∧
  ∀ s : State,
    (s.mode = .configured →
      exec .syncRst s = .next
        { s with
          xs := .searching, remaining := 0, absPos := 0, partialPayload := []
          lastErr := .ok, resp := some { err := .ok } }) ∧
    (s.mode = .unconfigured → exec .syncRst s = .next (s.answer { err := .notConfigured })) ∧
    (s.mode = .fatal → exec .syncRst s = .next (s.answer { err := .fatal })) ∧
    ∀ c : Command, opField c.word = 0x6 → dataField c.word ≠ 0 → operate c s = .next (s.answer { err := .illegalOp })

/-! ## Status view, codes, pseudo-instructions, boot -/

/-- R35: the fields of `STATUS`. -/
def Obligations.StatusWordFields : Prop :=
  statusWord State.reset = 0 ∧
  ∀ s : State,
    ((statusWord s).extractLsb' 0 2).toNat =
      (match s.mode with | .unconfigured => 0 | .configured => 1 | .fatal => 2) ∧
    ((statusWord s).extractLsb' 2 1).toNat = (match s.xs with | .searching => 0 | .copying => 1) ∧
    (statusWord s).extractLsb' 3 1 = 0 ∧
    (statusWord s).extractLsb' 4 4 = s.fatalCode.code ∧
    (statusWord s).extractLsb' 8 4 = s.lastErr.code ∧
    (statusWord s).extractLsb' 12 4 = 0

/-- R34: the numbered status outputs. -/
def Obligations.StatusOutputNumbers : Prop :=
  ∀ s : State,
    statusOutput 0x0 s = (statusWord s).toNat ∧ statusOutput 0x1 s = s.cfgM.toNat ∧
    statusOutput 0x2 s = s.cfgK.toNat ∧ statusOutput 0x3 s = s.cfgP ∧ statusOutput 0x4 s = s.cfgKind ∧
    statusOutput 0x5 s = s.cfgPattern.len.toNat * 2 ^ s.params.patternMax + s.cfgPattern.bits ∧
    statusOutput 0x6 s = s.encPrev.toNat ∧ statusOutput 0x7 s = s.decPrev.toNat ∧
    statusOutput 0x8 s = s.remaining ∧ statusOutput 0x9 s = s.absPos ∧
    ∀ number : BitVec 4, 0xA ≤ number.toNat → statusOutput number s = 0

/-- R190: the code of each error, no two the same and none of the reserved codes 9 to 15. -/
def Obligations.ErrorCodesAreDistinct : Prop :=
  ErrCode.ok.code = 0 ∧ ErrCode.illegalOp.code = 1 ∧ ErrCode.notConfigured.code = 2 ∧ ErrCode.fatal.code = 3 ∧
    ErrCode.cfgBadM.code = 4 ∧ ErrCode.cfgBadPlen.code = 5 ∧ ErrCode.cfgLocked.code = 6 ∧
    ErrCode.windowLimit.code = 7 ∧ ErrCode.offsetOverflow.code = 8 ∧
    ∀ e e' : ErrCode, e.code.toNat < 9 ∧ (e.code = e'.code → e = e')

/-- R87: `ENC.BYTE` and `DEC.BYTE` expand to `8/K` groups, most significant first, which rejoin to the byte,
whenever `K` divides 8. -/
def Obligations.ByteGroupsRejoin : Prop :=
  ∀ (k : Nat) (v : Byte), k ∈ [1, 2, 4, 8] →
    Pseudo.expand k (.encByte v) = (byteGroups k v).map .enc ∧
    Pseudo.expand k (.decByte v) = (byteGroups k v).map .dec ∧
    (byteGroups k v).length = 8 / k ∧ (∀ g ∈ byteGroups k v, g.toNat < 2 ^ k) ∧
    (byteGroups k v).foldl (fun acc g => acc * 2 ^ k + g.toNat) 0 = v.toNat

/-- R223: hardware reset and one legal `CFG` boot the block from any state, and the stream-start resets may be skipped
right after: they change nothing but the answer. -/
def Obligations.BootConfigures : Prop :=
  ∀ (s : State) (r : CfgRecord) (rest : List HostInput) (k : Nat),
    s.pending = .reset :: .command (encode (.cfg r)) :: rest → r.wf s.params = true →
    1 ≤ k → k ≤ 8 → r.m.toNat = 2 ^ k → 1 ≤ r.plen →
      ∃ t, Host.Core.run core 2 s = .next t ∧
        t.mode = .configured ∧ t.lastErr = .ok ∧ t.cfgM = r.m ∧ t.cfgK.toNat = k ∧ t.cfgP = r.plen ∧
        t.cfgKind = r.kind ∧ t.cfgPattern = r.pattern ∧ t.payloads = [] ∧ t.pending = rest ∧
        exec .encRst t = .next t ∧ exec .decRst t = .next t ∧ exec .syncRst t = .next t
end

