-- ==== Sys2Proof/Laws/Decode.lean ====
section
/-! SUPPORT. The fields of a command word, and the decoder as cases on them. -/

namespace Sys2Proof

/-- The opcode field of a word put together from an opcode and an operand (R76). -/
theorem opField_cmdWord (op : BitVec 4) (data : Byte) : opField (cmdWord op data) = op := by
  ext i hi
  have hdata : data.getLsbD (12 + i) = false := BitVec.getLsbD_of_ge data _ (by omega)
  simp [opField, cmdWord, BitVec.getElem_extractLsb', hdata, BitVec.getLsbD_eq_getElem, hi,
    show 12 + i < 16 by omega]

/-- The reserved field of a word put together from an opcode and an operand (R76). -/
theorem rsvField_cmdWord (op : BitVec 4) (data : Byte) : rsvField (cmdWord op data) = 0 := by
  ext i hi
  simp [rsvField, cmdWord, BitVec.getElem_extractLsb']
  omega

/-- The operand field of a word put together from an opcode and an operand (R76). -/
theorem dataField_cmdWord (op : BitVec 4) (data : Byte) : dataField (cmdWord op data) = data := by
  ext i hi
  simp [dataField, cmdWord, BitVec.getElem_extractLsb', hi, show i < 12 by omega, show i < 16 by omega]

/-- A command word is its three fields put together (R76). -/
theorem cmdWord_fields (w : CmdWord) (h : rsvField w = 0) : cmdWord (opField w) (dataField w) = w := by
  have hr : ∀ j, j < 4 → w.getLsbD (8 + j) = false := by
    intro j hj
    have := congrArg (fun v => v.getLsbD j) h
    simpa [rsvField, hj] using this
  ext i hi
  simp only [cmdWord, opField, dataField, BitVec.getElem_or, BitVec.getElem_setWidth, BitVec.getElem_shiftLeft,
    BitVec.getLsbD_extractLsb']
  rcases Nat.lt_or_ge i 8 with h8 | h8
  · simp [h8, show i < 12 by omega, BitVec.getLsbD_eq_getElem, hi]
  · rcases Nat.lt_or_ge i 12 with h12 | h12
    · have := hr (i - 8) (by omega)
      rw [show 8 + (i - 8) = i by omega, BitVec.getLsbD_eq_getElem hi] at this
      simp [h12, show ¬ i < 8 by omega, this]
    · have hi12 : 12 + (i - 12) = i := by omega
      simp [show ¬ i < 12 by omega, show ¬ i < 8 by omega, show i - 12 < 4 by omega, hi12,
        BitVec.getLsbD_eq_getElem, hi]

/-- All the decoder accepts: the seven opcodes of the map, with the reserved field 0 and no stray operand (R81). -/
theorem decode_ok_cases {c : Command} {i : Instr} (h : decode c = .ok i) :
    rsvField c.word = 0 ∧
    ((opField c.word = 0x1 ∧ i = .enc (dataField c.word)) ∨
     (opField c.word = 0x2 ∧ i = .dec (dataField c.word)) ∨
     (dataField c.word = 0 ∧
      ((opField c.word = 0x3 ∧ i = .encRst) ∨ (opField c.word = 0x4 ∧ i = .decRst) ∨
       (opField c.word = 0x5 ∧ i = .syncStep c.step) ∨ (opField c.word = 0x6 ∧ i = .syncRst) ∨
       (opField c.word = 0x7 ∧ i = .cfg c.cfg)))) := by
  have op_eq : ∀ k : Nat, k < 16 → (opField c.word).toNat = k → opField c.word = BitVec.ofNat 4 k := by
    intro k hk h
    apply BitVec.eq_of_toNat_eq
    rw [h, BitVec.toNat_ofNat, Nat.mod_eq_of_lt (by omega)]
  unfold decode withoutOperand at h
  split at h
  · cases h
  · rename_i hr
    refine ⟨by simpa using hr, ?_⟩
    split at h
    all_goals first
      | (rename_i hop; injection h with h; subst h; simp [op_eq _ (by omega) hop])
      | (rename_i hop; split at h
         · rename_i hd; injection h with h; subst h; simp [op_eq _ (by omega) hop, hd]
         · cases h)
      | cases h

/-- The first `n` groups of a byte put together are its top `k * n` bits (R87). -/
theorem byteGroups_fold (k v : Nat) (hv : v < 256) : ∀ n : Nat, k * n ≤ 8 →
    (List.range n).foldl (fun acc j => acc * 2 ^ k + v / 2 ^ (8 - k * (j + 1)) % 2 ^ k) 0 = v / 2 ^ (8 - k * n) := by
  intro n
  induction n with
  | zero => intro _; simp; omega
  | succ n ih =>
    intro h
    have h' : k * (n + 1) = k * n + k := by ring
    rw [List.range_succ, List.foldl_append, ih (by omega)]
    have e : 8 - k * n = (8 - k * (n + 1)) + k := by omega
    simp only [List.foldl_cons, List.foldl_nil]
    rw [e, Nat.pow_add, ← Nat.div_div_eq_div_mul]
    have := Nat.div_add_mod (v / 2 ^ (8 - k * (n + 1))) (2 ^ k)
    rw [Nat.mul_comm]
    exact this

end Sys2Proof
end

