-- ==== Sys2Proof/Laws/State.lean ====
section
/-! SUPPORT. One lemma per field per named update of the state, each true by definition. -/

namespace Sys2Proof.Machine

variable (s : State)

/-! `answer` writes `last_err` and the response. -/

@[simp] theorem answer_mode (r : Response) : (s.answer r).mode = s.mode := rfl
@[simp] theorem answer_cfgM (r : Response) : (s.answer r).cfgM = s.cfgM := rfl
@[simp] theorem answer_cfgK (r : Response) : (s.answer r).cfgK = s.cfgK := rfl
@[simp] theorem answer_cfgP (r : Response) : (s.answer r).cfgP = s.cfgP := rfl
@[simp] theorem answer_cfgKind (r : Response) : (s.answer r).cfgKind = s.cfgKind := rfl
@[simp] theorem answer_cfgPattern (r : Response) : (s.answer r).cfgPattern = s.cfgPattern := rfl
@[simp] theorem answer_encPrev (r : Response) : (s.answer r).encPrev = s.encPrev := rfl
@[simp] theorem answer_decPrev (r : Response) : (s.answer r).decPrev = s.decPrev := rfl
@[simp] theorem answer_xs (r : Response) : (s.answer r).xs = s.xs := rfl
@[simp] theorem answer_remaining (r : Response) : (s.answer r).remaining = s.remaining := rfl
@[simp] theorem answer_absPos (r : Response) : (s.answer r).absPos = s.absPos := rfl
@[simp] theorem answer_lastErr (r : Response) : (s.answer r).lastErr = r.err := rfl
@[simp] theorem answer_fatalCode (r : Response) : (s.answer r).fatalCode = s.fatalCode := rfl
@[simp] theorem answer_partialPayload (r : Response) : (s.answer r).partialPayload = s.partialPayload := rfl
@[simp] theorem answer_payloads (r : Response) : (s.answer r).payloads = s.payloads := rfl
@[simp] theorem answer_resp (r : Response) : (s.answer r).resp = some r := rfl
@[simp] theorem answer_mem (r : Response) : (s.answer r).mem = s.mem := rfl
@[simp] theorem answer_pending (r : Response) : (s.answer r).pending = s.pending := rfl
@[simp] theorem answer_params (r : Response) : (s.answer r).params = s.params := rfl

/-! The hardware reset keeps only the host memory, the pending acts and the build parameters. -/

@[simp] theorem hardwareReset_mode : (hardwareReset s).mode = .unconfigured := rfl
@[simp] theorem hardwareReset_cfgM : (hardwareReset s).cfgM = 0 := rfl
@[simp] theorem hardwareReset_cfgK : (hardwareReset s).cfgK = 0 := rfl
@[simp] theorem hardwareReset_cfgP : (hardwareReset s).cfgP = 0 := rfl
@[simp] theorem hardwareReset_cfgKind : (hardwareReset s).cfgKind = 0 := rfl
@[simp] theorem hardwareReset_cfgPattern : (hardwareReset s).cfgPattern = ⟨0, 0⟩ := rfl
@[simp] theorem hardwareReset_encPrev : (hardwareReset s).encPrev = 0 := rfl
@[simp] theorem hardwareReset_decPrev : (hardwareReset s).decPrev = 0 := rfl
@[simp] theorem hardwareReset_xs : (hardwareReset s).xs = .searching := rfl
@[simp] theorem hardwareReset_remaining : (hardwareReset s).remaining = 0 := rfl
@[simp] theorem hardwareReset_absPos : (hardwareReset s).absPos = 0 := rfl
@[simp] theorem hardwareReset_lastErr : (hardwareReset s).lastErr = .ok := rfl
@[simp] theorem hardwareReset_fatalCode : (hardwareReset s).fatalCode = .ok := rfl
@[simp] theorem hardwareReset_partialPayload : (hardwareReset s).partialPayload = [] := rfl
@[simp] theorem hardwareReset_payloads : (hardwareReset s).payloads = [] := rfl
@[simp] theorem hardwareReset_resp : (hardwareReset s).resp = none := rfl
@[simp] theorem hardwareReset_mem : (hardwareReset s).mem = s.mem := rfl
@[simp] theorem hardwareReset_pending : (hardwareReset s).pending = s.pending := rfl
@[simp] theorem hardwareReset_params : (hardwareReset s).params = s.params := rfl

/-! A host write changes only memory. -/

@[simp] theorem hostWrite_mode (base : Nat) (bytes : List Byte) : (hostWrite base bytes s).mode = s.mode := rfl
@[simp] theorem hostWrite_cfgM (base : Nat) (bytes : List Byte) : (hostWrite base bytes s).cfgM = s.cfgM := rfl
@[simp] theorem hostWrite_cfgK (base : Nat) (bytes : List Byte) : (hostWrite base bytes s).cfgK = s.cfgK := rfl
@[simp] theorem hostWrite_cfgP (base : Nat) (bytes : List Byte) : (hostWrite base bytes s).cfgP = s.cfgP := rfl
@[simp] theorem hostWrite_cfgKind (base : Nat) (bytes : List Byte) : (hostWrite base bytes s).cfgKind = s.cfgKind := rfl
@[simp] theorem hostWrite_cfgPattern (base : Nat) (bytes : List Byte) : (hostWrite base bytes s).cfgPattern = s.cfgPattern := rfl
@[simp] theorem hostWrite_encPrev (base : Nat) (bytes : List Byte) : (hostWrite base bytes s).encPrev = s.encPrev := rfl
@[simp] theorem hostWrite_decPrev (base : Nat) (bytes : List Byte) : (hostWrite base bytes s).decPrev = s.decPrev := rfl
@[simp] theorem hostWrite_xs (base : Nat) (bytes : List Byte) : (hostWrite base bytes s).xs = s.xs := rfl
@[simp] theorem hostWrite_remaining (base : Nat) (bytes : List Byte) : (hostWrite base bytes s).remaining = s.remaining := rfl
@[simp] theorem hostWrite_absPos (base : Nat) (bytes : List Byte) : (hostWrite base bytes s).absPos = s.absPos := rfl
@[simp] theorem hostWrite_lastErr (base : Nat) (bytes : List Byte) : (hostWrite base bytes s).lastErr = s.lastErr := rfl
@[simp] theorem hostWrite_fatalCode (base : Nat) (bytes : List Byte) : (hostWrite base bytes s).fatalCode = s.fatalCode := rfl
@[simp] theorem hostWrite_partialPayload (base : Nat) (bytes : List Byte) : (hostWrite base bytes s).partialPayload = s.partialPayload := rfl
@[simp] theorem hostWrite_payloads (base : Nat) (bytes : List Byte) : (hostWrite base bytes s).payloads = s.payloads := rfl
@[simp] theorem hostWrite_resp (base : Nat) (bytes : List Byte) : (hostWrite base bytes s).resp = s.resp := rfl
@[simp] theorem hostWrite_mem (base : Nat) (bytes : List Byte) : (hostWrite base bytes s).mem = s.mem.writeBytes base bytes := rfl
@[simp] theorem hostWrite_pending (base : Nat) (bytes : List Byte) : (hostWrite base bytes s).pending = s.pending := rfl
@[simp] theorem hostWrite_params (base : Nat) (bytes : List Byte) : (hostWrite base bytes s).params = s.params := rfl

/-! `withFetchWord` changes only the pending acts. -/

@[simp] theorem withFetchWord_mode (nbits w : Nat) : (s.withFetchWord nbits w).mode = s.mode := rfl
@[simp] theorem withFetchWord_cfgM (nbits w : Nat) : (s.withFetchWord nbits w).cfgM = s.cfgM := rfl
@[simp] theorem withFetchWord_cfgK (nbits w : Nat) : (s.withFetchWord nbits w).cfgK = s.cfgK := rfl
@[simp] theorem withFetchWord_cfgP (nbits w : Nat) : (s.withFetchWord nbits w).cfgP = s.cfgP := rfl
@[simp] theorem withFetchWord_cfgKind (nbits w : Nat) : (s.withFetchWord nbits w).cfgKind = s.cfgKind := rfl
@[simp] theorem withFetchWord_cfgPattern (nbits w : Nat) : (s.withFetchWord nbits w).cfgPattern = s.cfgPattern := rfl
@[simp] theorem withFetchWord_encPrev (nbits w : Nat) : (s.withFetchWord nbits w).encPrev = s.encPrev := rfl
@[simp] theorem withFetchWord_decPrev (nbits w : Nat) : (s.withFetchWord nbits w).decPrev = s.decPrev := rfl
@[simp] theorem withFetchWord_xs (nbits w : Nat) : (s.withFetchWord nbits w).xs = s.xs := rfl
@[simp] theorem withFetchWord_remaining (nbits w : Nat) : (s.withFetchWord nbits w).remaining = s.remaining := rfl
@[simp] theorem withFetchWord_absPos (nbits w : Nat) : (s.withFetchWord nbits w).absPos = s.absPos := rfl
@[simp] theorem withFetchWord_lastErr (nbits w : Nat) : (s.withFetchWord nbits w).lastErr = s.lastErr := rfl
@[simp] theorem withFetchWord_fatalCode (nbits w : Nat) : (s.withFetchWord nbits w).fatalCode = s.fatalCode := rfl
@[simp] theorem withFetchWord_partialPayload (nbits w : Nat) : (s.withFetchWord nbits w).partialPayload = s.partialPayload := rfl
@[simp] theorem withFetchWord_payloads (nbits w : Nat) : (s.withFetchWord nbits w).payloads = s.payloads := rfl
@[simp] theorem withFetchWord_resp (nbits w : Nat) : (s.withFetchWord nbits w).resp = s.resp := rfl
@[simp] theorem withFetchWord_mem (nbits w : Nat) : (s.withFetchWord nbits w).mem = s.mem := rfl
@[simp] theorem withFetchWord_pending (nbits w : Nat) : (s.withFetchWord nbits w).pending = .command (tableCommand nbits w) :: s.pending := rfl
@[simp] theorem withFetchWord_params (nbits w : Nat) : (s.withFetchWord nbits w).params = s.params := rfl

/-! A legal `CFG` writes the configuration and resets the two units. -/

@[simp] theorem loadConfig_mode (r : CfgRecord) : (loadConfig r s).mode = .configured := rfl
@[simp] theorem loadConfig_cfgM (r : CfgRecord) : (loadConfig r s).cfgM = r.m := rfl
@[simp] theorem loadConfig_cfgK (r : CfgRecord) : (loadConfig r s).cfgK = alphabetBits r.m := rfl
@[simp] theorem loadConfig_cfgP (r : CfgRecord) : (loadConfig r s).cfgP = r.plen := rfl
@[simp] theorem loadConfig_cfgKind (r : CfgRecord) : (loadConfig r s).cfgKind = r.kind := rfl
@[simp] theorem loadConfig_cfgPattern (r : CfgRecord) : (loadConfig r s).cfgPattern = r.pattern := rfl
@[simp] theorem loadConfig_encPrev (r : CfgRecord) : (loadConfig r s).encPrev = 0 := rfl
@[simp] theorem loadConfig_decPrev (r : CfgRecord) : (loadConfig r s).decPrev = 0 := rfl
@[simp] theorem loadConfig_xs (r : CfgRecord) : (loadConfig r s).xs = .searching := rfl
@[simp] theorem loadConfig_remaining (r : CfgRecord) : (loadConfig r s).remaining = 0 := rfl
@[simp] theorem loadConfig_absPos (r : CfgRecord) : (loadConfig r s).absPos = 0 := rfl
@[simp] theorem loadConfig_lastErr (r : CfgRecord) : (loadConfig r s).lastErr = s.lastErr := rfl
@[simp] theorem loadConfig_fatalCode (r : CfgRecord) : (loadConfig r s).fatalCode = s.fatalCode := rfl
@[simp] theorem loadConfig_partialPayload (r : CfgRecord) : (loadConfig r s).partialPayload = [] := rfl
@[simp] theorem loadConfig_payloads (r : CfgRecord) : (loadConfig r s).payloads = s.payloads := rfl
@[simp] theorem loadConfig_resp (r : CfgRecord) : (loadConfig r s).resp = s.resp := rfl
@[simp] theorem loadConfig_mem (r : CfgRecord) : (loadConfig r s).mem = s.mem := rfl
@[simp] theorem loadConfig_pending (r : CfgRecord) : (loadConfig r s).pending = s.pending := rfl
@[simp] theorem loadConfig_params (r : CfgRecord) : (loadConfig r s).params = s.params := rfl

/-! Searching without an event changes only `abs_pos` and the answer. -/

@[simp] theorem skipWindow_mode (r : StepRecord) : (skipWindow r s).mode = s.mode := rfl
@[simp] theorem skipWindow_cfgM (r : StepRecord) : (skipWindow r s).cfgM = s.cfgM := rfl
@[simp] theorem skipWindow_cfgK (r : StepRecord) : (skipWindow r s).cfgK = s.cfgK := rfl
@[simp] theorem skipWindow_cfgP (r : StepRecord) : (skipWindow r s).cfgP = s.cfgP := rfl
@[simp] theorem skipWindow_cfgKind (r : StepRecord) : (skipWindow r s).cfgKind = s.cfgKind := rfl
@[simp] theorem skipWindow_cfgPattern (r : StepRecord) : (skipWindow r s).cfgPattern = s.cfgPattern := rfl
@[simp] theorem skipWindow_encPrev (r : StepRecord) : (skipWindow r s).encPrev = s.encPrev := rfl
@[simp] theorem skipWindow_decPrev (r : StepRecord) : (skipWindow r s).decPrev = s.decPrev := rfl
@[simp] theorem skipWindow_xs (r : StepRecord) : (skipWindow r s).xs = s.xs := rfl
@[simp] theorem skipWindow_remaining (r : StepRecord) : (skipWindow r s).remaining = s.remaining := rfl
@[simp] theorem skipWindow_absPos (r : StepRecord) : (skipWindow r s).absPos = s.absPos + r.window.len := rfl
@[simp] theorem skipWindow_lastErr (r : StepRecord) : (skipWindow r s).lastErr = .ok := rfl
@[simp] theorem skipWindow_fatalCode (r : StepRecord) : (skipWindow r s).fatalCode = s.fatalCode := rfl
@[simp] theorem skipWindow_partialPayload (r : StepRecord) : (skipWindow r s).partialPayload = s.partialPayload := rfl
@[simp] theorem skipWindow_payloads (r : StepRecord) : (skipWindow r s).payloads = s.payloads := rfl
@[simp] theorem skipWindow_resp (r : StepRecord) : (skipWindow r s).resp = some { err := .ok, consumed := r.window.len } := rfl
@[simp] theorem skipWindow_mem (r : StepRecord) : (skipWindow r s).mem = s.mem := rfl
@[simp] theorem skipWindow_pending (r : StepRecord) : (skipWindow r s).pending = s.pending := rfl
@[simp] theorem skipWindow_params (r : StepRecord) : (skipWindow r s).params = s.params := rfl

end Sys2Proof.Machine
end

