-- ==== Sys2Proof/Laws/Memory.lean ====
section
/-! SUPPORT. What the memory operations do, byte by byte, and that each keeps the canonical form. -/

namespace Sys2Proof.Machine

@[simp] theorem Memory.read_nil (a : Nat) : Memory.read [] a = none := rfl

/-- Read after write: the written address gives the value, every other address is as before. -/
theorem Memory.read_write (m : Memory) (a b : Nat) (v : Byte) :
    (m.write a v).read b = if a = b then some v else m.read b := by
  induction m with
  | nil => simp [Memory.write, Memory.read]
  | cons cell rest ih =>
    obtain ⟨c, w⟩ := cell
    unfold Memory.write
    split
    · simp only [Memory.read]
    · split
      · rename_i _ hac
        subst hac
        simp only [Memory.read]
        split <;> rfl
      · simp only [Memory.read, ih]
        split <;> split <;> simp_all

@[simp] theorem Memory.read_write_same (m : Memory) (a : Nat) (v : Byte) :
    (m.write a v).read a = some v := by simp [Memory.read_write]

theorem Memory.read_write_other (m : Memory) {a b : Nat} (v : Byte) (h : a ≠ b) :
    (m.write a v).read b = m.read b := by simp [Memory.read_write, h]

/-- Every address a write lists was listed before or is the written one. -/
theorem Memory.mem_write {m : Memory} {a : Nat} {v : Byte} {cell : Host.Cell}
    (h : cell ∈ m.write a v) : cell = (a, v) ∨ cell ∈ m := by
  induction m with
  | nil => simpa [Memory.write] using h
  | cons head rest ih =>
    obtain ⟨c, w⟩ := head
    unfold Memory.write at h
    split at h
    · simpa using h
    · split at h
      · rcases List.mem_cons.mp h with h | h <;> simp [h]
      · rcases List.mem_cons.mp h with h | h
        · simp [h]
        · rcases ih h with h | h <;> simp [h]

/-- A write keeps the canonical form. -/
theorem Memory.wf_write {m : Memory} (h : m.wf) (a : Nat) (v : Byte) : (m.write a v).wf := by
  induction m with
  | nil => simp [Memory.write, Memory.wf]
  | cons head rest ih =>
    obtain ⟨c, w⟩ := head
    obtain ⟨hhead, hrest⟩ := List.pairwise_cons.mp h
    unfold Memory.write
    split
    · rename_i hac
      refine List.pairwise_cons.mpr ⟨?_, h⟩
      intro cell hcell
      rcases List.mem_cons.mp hcell with rfl | hcell
      · exact hac
      · exact Nat.lt_trans hac (hhead cell hcell)
    · split
      · rename_i _ hac
        subst hac
        exact List.pairwise_cons.mpr ⟨hhead, hrest⟩
      · rename_i h1 h2
        refine List.pairwise_cons.mpr ⟨?_, ih hrest⟩
        intro cell hcell
        rcases Memory.mem_write hcell with rfl | hcell
        · show c < a
          omega
        · exact hhead cell hcell

/-- Writing a list of bytes keeps the canonical form. -/
theorem Memory.wf_writeBytes {m : Memory} (h : m.wf) (a : Nat) (vs : List Byte) : (m.writeBytes a vs).wf := by
  induction vs generalizing m a with
  | nil => exact h
  | cons v vs ih => exact ih (Memory.wf_write h a v) (a + 1)

/-- The copy loop keeps the canonical form. -/
theorem Memory.wf_copy {m : Memory} (h : m.wf) (count src dst : Nat) : (m.copy count src dst).wf := by
  induction count generalizing m src dst with
  | zero => exact h
  | succ count ih =>
    simp only [Memory.copy]
    split
    · exact ih (Memory.wf_write h _ _) _ _
    · exact ih h _ _

/-- What reading a list of bytes written from `base` up gives. -/
theorem Memory.read_writeBytes (m : Memory) (base : Nat) (vs : List Byte) (a : Nat) :
    (m.writeBytes base vs).read a =
      if base ≤ a ∧ a < base + vs.length then vs[a - base]? else m.read a := by
  induction vs generalizing m base with
  | nil => simp [Memory.writeBytes]
  | cons v vs ih =>
    rw [Memory.writeBytes, ih, Memory.read_write]
    by_cases hab : base = a
    · subst hab
      simp
    · by_cases hin : base + 1 ≤ a ∧ a < base + 1 + vs.length
      · have h1 : base ≤ a ∧ a < base + (v :: vs).length := by simp; omega
        rw [if_pos hin, if_pos h1, show a - base = (a - (base + 1)) + 1 by omega, List.getElem?_cons_succ]
      · have h1 : ¬ (base ≤ a ∧ a < base + (v :: vs).length) := by simp; omega
        rw [if_neg hin, if_neg h1, if_neg hab]

/-- The copy loop on a readable source that does not overlap its destination: byte `k` of the destination becomes
byte `k` of the source (R139), every other byte is as before (R53). -/
theorem Memory.read_copy (m : Memory) (count src dst : Nat)
    (readable : ∀ k < count, (m.read (src + k)).isSome)
    (disjoint : ∀ i < count, ∀ j < count, src + i ≠ dst + j) (a : Nat) :
    (m.copy count src dst).read a =
      if dst ≤ a ∧ a < dst + count then m.read (src + (a - dst)) else m.read a := by
  induction count generalizing m src dst with
  | zero => simp [Memory.copy]
  | succ count ih =>
    have hsrc := readable 0 (by omega)
    obtain ⟨v, hv⟩ := Option.isSome_iff_exists.mp hsrc
    have hv' : m.read src = some v := by simpa using hv
    simp only [Memory.copy, hv']
    have hother : ∀ k, k < count → (m.write dst v).read (src + 1 + k) = m.read (src + 1 + k) := by
      intro k hk
      refine Memory.read_write_other m v ?_
      have := disjoint (k + 1) (by omega) 0 (by omega)
      omega
    rw [ih (m.write dst v) (src + 1) (dst + 1)
      (fun k hk => by rw [hother k hk]; simpa [Nat.add_assoc, Nat.add_comm, Nat.add_left_comm] using readable (k + 1) (by omega))
      (fun i hi j hj => by have := disjoint (i + 1) (by omega) (j + 1) (by omega); omega)]
    by_cases hda : dst = a
    · subst hda
      have h1 : ¬ (dst + 1 ≤ dst ∧ dst < dst + 1 + count) := by omega
      have h2 : dst ≤ dst ∧ dst < dst + (count + 1) := by omega
      rw [if_neg h1, if_pos h2, Memory.read_write_same, Nat.sub_self, Nat.add_zero, hv']
    · by_cases hin : dst + 1 ≤ a ∧ a < dst + 1 + count
      · have h2 : dst ≤ a ∧ a < dst + (count + 1) := by omega
        rw [if_pos hin, if_pos h2, hother (a - (dst + 1)) (by omega)]
        congr 1
        omega
      · have h2 : ¬ (dst ≤ a ∧ a < dst + (count + 1)) := by omega
        rw [if_neg hin, if_neg h2, Memory.read_write_other m v hda]

/-- Copying nothing changes nothing. -/
@[simp] theorem Memory.copy_zero (m : Memory) (src dst : Nat) : m.copy 0 src dst = m := rfl

@[simp] theorem Memory.bytes_zero (m : Memory) (base : Nat) : m.bytes base 0 = [] := rfl

/-- A buffer exists when each of its bytes can be read. -/
theorem Memory.holds_iff (m : Memory) (b : Buffer) :
    m.holds b = true ↔ ∀ i < b.len, (m.read (b.base + i)).isSome := by
  simp only [Memory.holds, List.all_eq_true, List.mem_range'_1]
  constructor
  · intro h i hi
    exact h (b.base + i) ⟨by omega, by omega⟩
  · rintro h a ⟨h1, h2⟩
    have := h (a - b.base) (by omega)
    rwa [show b.base + (a - b.base) = a by omega] at this

/-- The bytes read from an address up, where all of them exist. -/
theorem Memory.bytes_spec (m : Memory) (base len : Nat) (h : ∀ k < len, (m.read (base + k)).isSome) :
    (m.bytes base len).length = len ∧ ∀ k < len, (m.bytes base len)[k]? = m.read (base + k) := by
  induction len generalizing base with
  | zero => simp
  | succ len ih =>
    obtain ⟨v, hv⟩ := Option.isSome_iff_exists.mp (h 0 (by omega))
    have hv' : m.read base = some v := by simpa using hv
    have hstep : m.bytes base (len + 1) = v :: m.bytes (base + 1) len := by
      simp [Memory.bytes, List.range'_succ, hv']
    obtain ⟨hlen, hget⟩ := ih (base + 1) (fun k hk => by
      simpa [Nat.add_assoc, Nat.add_comm, Nat.add_left_comm] using h (k + 1) (by omega))
    refine ⟨by simp [hstep, hlen], fun k hk => ?_⟩
    cases k with
    | zero => simp [hstep, hv']
    | succ k =>
      rw [hstep, List.getElem?_cons_succ, hget k (by omega)]
      congr 1
      omega

/-- An address below every listed one has no byte. -/
theorem Memory.read_below {m : Memory} {a : Nat} (h : ∀ cell ∈ m, a < cell.1) : m.read a = none := by
  induction m with
  | nil => rfl
  | cons head rest ih =>
    obtain ⟨c, w⟩ := head
    have hc : a < c := h (c, w) (by simp)
    simp only [Memory.read, if_neg (Nat.ne_of_gt hc)]
    exact ih (fun cell hcell => h cell (by simp [hcell]))

/-- Memories in canonical form that read the same are the same list. -/
theorem Memory.ext_read {m m' : Memory} (h : m.wf) (h' : m'.wf) (hread : ∀ a, m.read a = m'.read a) : m = m' := by
  induction m generalizing m' with
  | nil =>
    cases m' with
    | nil => rfl
    | cons head' rest' => simpa [Memory.read] using hread head'.1
  | cons head rest ih =>
    obtain ⟨c, w⟩ := head
    cases m' with
    | nil => simpa [Memory.read] using hread c
    | cons head' rest' =>
      obtain ⟨c', w'⟩ := head'
      obtain ⟨hh, hr⟩ := List.pairwise_cons.mp h
      obtain ⟨hh', hr'⟩ := List.pairwise_cons.mp h'
      have hcc : c = c' := by
        rcases Nat.lt_trichotomy c c' with hlt | heq | hgt
        · have hlow : Memory.read ((c', w') :: rest') c = none := Memory.read_below (by
            intro cell hcell
            rcases List.mem_cons.mp hcell with rfl | hcell
            · exact hlt
            · exact Nat.lt_trans hlt (hh' cell hcell))
          have := hread c
          rw [hlow] at this
          simp [Memory.read] at this
        · exact heq
        · have hlow : Memory.read ((c, w) :: rest) c' = none := Memory.read_below (by
            intro cell hcell
            rcases List.mem_cons.mp hcell with rfl | hcell
            · exact hgt
            · exact Nat.lt_trans hgt (hh cell hcell))
          have := hread c'
          rw [hlow] at this
          simp [Memory.read] at this
      subst hcc
      have hw : w = w' := by simpa [Memory.read] using hread c
      subst hw
      have hrest : rest = rest' := ih hr hr' (fun a => by
        by_cases hca : c = a
        · subst hca
          rw [Memory.read_below hh, Memory.read_below hh']
        · simpa [Memory.read, hca] using hread a)
      rw [hrest]

/-- Two buffers overlap exactly when a byte of the one is a byte of the other (R59). -/
theorem buffersOverlap_iff (a b : Buffer) :
    buffersOverlap a b = true ↔ ∃ i < a.len, ∃ j < b.len, a.base + i = b.base + j := by
  simp only [buffersOverlap, Bool.and_eq_true, decide_eq_true_eq]
  constructor
  · rintro ⟨⟨⟨ha, hb⟩, h1⟩, h2⟩
    rcases Nat.le_total a.base b.base with h | h
    · exact ⟨b.base - a.base, by omega, 0, hb, by omega⟩
    · exact ⟨0, ha, a.base - b.base, by omega, by omega⟩
  · rintro ⟨i, hi, j, hj, h⟩
    omega

end Sys2Proof.Machine
end

