-- ==== Sys2Proof/Laws/Ops.lean ====
section
/-! SUPPORT. The shared operations: errors, mode gating, the checks of `CFG`, one step. -/

namespace Sys2Proof.Machine

theorem whenConfigured_configured {s : State} (h : s.mode = .configured) (body : Host.Outcome State Fault Refusal) :
    whenConfigured s body = body := by simp [whenConfigured, h]

theorem whenConfigured_unconfigured {s : State} (h : s.mode = .unconfigured) (body : Host.Outcome State Fault Refusal) :
    whenConfigured s body = .next (s.answer { err := .notConfigured }) := by simp [whenConfigured, h, raiseErr]

theorem whenConfigured_fatal {s : State} (h : s.mode = .fatal) (body : Host.Outcome State Fault Refusal) :
    whenConfigured s body = .next (s.answer { err := .fatal }) := by simp [whenConfigured, h, raiseErr]

/-- All a mode-gated operation can do when it answers a next state. -/
theorem whenConfigured_next {s t : State} {body : Host.Outcome State Fault Refusal}
    (h : whenConfigured s body = .next t) :
    (s.mode = .configured ∧ body = .next t) ∨
    (s.mode = .unconfigured ∧ t = s.answer { err := .notConfigured }) ∨
    (s.mode = .fatal ∧ t = s.answer { err := .fatal }) := by
  cases hm : s.mode with
  | configured => exact .inl ⟨rfl, by rwa [whenConfigured_configured hm] at h⟩
  | unconfigured => exact .inr (.inl ⟨rfl, by rw [whenConfigured_unconfigured hm] at h; injection h with h; exact h.symm⟩)
  | fatal => exact .inr (.inr ⟨rfl, by rw [whenConfigured_fatal hm] at h; injection h with h; exact h.symm⟩)

/-- The width check of `ENC` passes exactly on a group of at most `K` bits (R78). -/
theorem whenWidthFits_enc (s : State) (data : Byte) (body : Host.Outcome State Fault Refusal) :
    whenWidthFits s (.enc data) body =
      if data.toNat < 2 ^ s.cfgK.toNat then body else .next (s.answer { err := .illegalOp }) := by
  by_cases h : data.toNat < 2 ^ s.cfgK.toNat <;> simp [whenWidthFits, decodeWidth, groupFits, raiseErr, h]

/-- The width check of `DEC` passes exactly on a symbol of at most `K` bits (R78). -/
theorem whenWidthFits_dec (s : State) (data : Byte) (body : Host.Outcome State Fault Refusal) :
    whenWidthFits s (.dec data) body =
      if data.toNat < 2 ^ s.cfgK.toNat then body else .next (s.answer { err := .illegalOp }) := by
  by_cases h : data.toNat < 2 ^ s.cfgK.toNat <;> simp [whenWidthFits, decodeWidth, groupFits, raiseErr, h]

/-- A legal alphabet size is `2^K` with `1 <= K <= 8` (R171). -/
theorem legalAlphabet_iff (m : BitVec 9) :
    legalAlphabet m = true ↔ ∃ k, 1 ≤ k ∧ k ≤ 8 ∧ m.toNat = 2 ^ k := by
  constructor
  · intro h
    simp only [legalAlphabet, Bool.and_eq_true, decide_eq_true_eq] at h
    obtain ⟨⟨h2, h256⟩, hpow⟩ := h
    refine ⟨m.toNat.log2, ?_, ?_, hpow.symm⟩
    · rcases Nat.eq_zero_or_pos m.toNat.log2 with h0 | h0
      · rw [h0] at hpow; simp at hpow; omega
      · exact h0
    · by_contra hlt
      have : 2 ^ 9 ≤ 2 ^ m.toNat.log2 := Nat.pow_le_pow_right (by omega) (by omega)
      omega
  · rintro ⟨k, h1, h8, hk⟩
    have h2 : 2 ^ 1 ≤ 2 ^ k := Nat.pow_le_pow_right (by omega) h1
    have h256 : 2 ^ k ≤ 2 ^ 8 := Nat.pow_le_pow_right (by omega) h8
    simp only [legalAlphabet, Bool.and_eq_true, decide_eq_true_eq, hk, Nat.log2_two_pow]
    exact ⟨⟨by omega, by omega⟩, trivial⟩

/-- `cfg_K = log2(M)` (R175). -/
theorem alphabetBits_of_pow {m : BitVec 9} {k : Nat} (h : m.toNat = 2 ^ k) : alphabetBits m = BitVec.ofNat 4 k := by
  rw [alphabetBits, h, Nat.log2_two_pow]

/-- The checks of `CFG` pass exactly on a legal configuration (R171). -/
theorem cfgProblem_none_iff (r : CfgRecord) :
    cfgProblem r = none ↔ (∃ k, 1 ≤ k ∧ k ≤ 8 ∧ r.m.toNat = 2 ^ k) ∧ 1 ≤ r.plen := by
  rw [← legalAlphabet_iff]
  cases h : legalAlphabet r.m
  · simp [cfgProblem, h]
  · simp [cfgProblem, h, Nat.one_le_iff_ne_zero]

theorem cfgProblem_badM {r : CfgRecord} (h : ¬ ∃ k, 1 ≤ k ∧ k ≤ 8 ∧ r.m.toNat = 2 ^ k) :
    cfgProblem r = some .cfgBadM := by
  rw [← legalAlphabet_iff] at h
  simp [cfgProblem, h]

theorem cfgProblem_badPlen {r : CfgRecord} (h : ∃ k, 1 ≤ k ∧ k ≤ 8 ∧ r.m.toNat = 2 ^ k) (hp : r.plen = 0) :
    cfgProblem r = some .cfgBadPlen := by
  rw [← legalAlphabet_iff] at h
  simp [cfgProblem, h, hp]

/-- A configuration is refused for its alphabet size or its packet length, and for nothing else. -/
theorem cfgProblem_some {r : CfgRecord} {e : ErrCode} (h : cfgProblem r = some e) : e = .cfgBadM ∨ e = .cfgBadPlen := by
  unfold cfgProblem at h
  split at h
  · injection h with h; exact .inl h.symm
  · split at h
    · injection h with h; exact .inr h.symm
    · cases h

/-- All `CFG` can do; it always answers (R171 to R174). -/
theorem execCfg_cases (r : CfgRecord) (s : State) :
    (s.mode = .fatal ∧ execCfg r s = .next (s.answer { err := .fatal })) ∨
    (s.mode = .configured ∧ execCfg r s = .next (s.answer { err := .cfgLocked })) ∨
    (∃ e, s.mode = .unconfigured ∧ cfgProblem r = some e ∧
      execCfg r s = .next ({ s with mode := .fatal, fatalCode := e }.answer { err := e })) ∨
    (s.mode = .unconfigured ∧ cfgProblem r = none ∧ execCfg r s = .next ((loadConfig r s).answer { err := .ok })) := by
  cases hm : s.mode with
  | fatal => exact .inl ⟨rfl, by simp [execCfg, hm, raiseErr]⟩
  | configured => exact .inr (.inl ⟨rfl, by simp [execCfg, hm, raiseErr]⟩)
  | unconfigured =>
    cases hp : cfgProblem r with
    | some e => exact .inr (.inr (.inl ⟨e, rfl, rfl, by simp [execCfg, hm, hp, raiseFatal]⟩))
    | none => exact .inr (.inr (.inr ⟨rfl, rfl, by simp [execCfg, hm, hp]⟩))

/-- All one operation can do when it answers a next state: an illegal word, or `exec` of the decoded instruction. -/
theorem operate_next {c : Command} {s t : State} (h : operate c s = .next t) :
    ((∃ e, decode c = .error e) ∧ t = s.answer { err := .illegalOp }) ∨
    ∃ i, decode c = .ok i ∧ i.wf s.params = true ∧ exec i s = .next t := by
  unfold operate at h
  split at h
  · rename_i e he
    simp only [raiseErr] at h
    injection h with h
    exact .inl ⟨⟨e, he⟩, h.symm⟩
  · rename_i i hi
    split at h
    · rename_i hwf
      exact .inr ⟨i, hi, hwf, h⟩
    · cases h

/-- All one step can do when it answers a next state. -/
theorem step_next {s t : State} (h : step s = .next t) :
    (s.pending = [] ∧ t = s) ∨
    ∃ act rest, s.pending = act :: rest ∧
      ((∃ c, act = .command c ∧ operate c { s with pending := rest } = .next t) ∨
       (act = .reset ∧ t = hardwareReset { s with pending := rest }) ∨
       (∃ base bytes, act = .write base bytes ∧ t = hostWrite base bytes { s with pending := rest })) := by
  unfold step at h
  split at h
  · rename_i hp
    injection h with h
    exact .inl ⟨hp, h.symm⟩
  · rename_i act rest hp
    refine .inr ⟨act, rest, hp, ?_⟩
    cases act with
    | command c => exact .inl ⟨c, rfl, h⟩
    | reset =>
      simp only at h
      injection h with h
      exact .inr (.inl ⟨rfl, h.symm⟩)
    | write base bytes =>
      simp only at h
      injection h with h
      exact .inr (.inr ⟨base, bytes, rfl, h.symm⟩)

end Sys2Proof.Machine
end

