-- ==== Sys2Proof/Laws/LineCodec.lean ====
section
/-! SUPPORT. The codec's modular arithmetic, and what its four operations answer. -/

namespace Sys2Proof.Machine

/-- `addMod` is the sum modulo `M` (R100). -/
theorem addMod_toNat (a b : Byte) {m : BitVec 9} (h1 : 0 < m.toNat) (h2 : m.toNat ≤ 256) :
    (addMod a b m).toNat = (a.toNat + b.toNat) % m.toNat := by
  have := Nat.mod_lt (a.toNat + b.toNat) h1
  simp only [addMod, BitVec.toNat_ofNat]
  omega

/-- `subMod` is the difference modulo `M`, in `[0, M)` (R9, R100). -/
theorem subMod_toNat (a b : Byte) {m : BitVec 9} (h1 : 0 < m.toNat) (h2 : m.toNat ≤ 256) :
    ((subMod a b m).toNat : Int) = ((a.toNat : Int) - (b.toNat : Int)) % (m.toNat : Int) := by
  have hpos : (0 : Int) < (m.toNat : Int) := by exact_mod_cast h1
  have hlo := Int.emod_nonneg ((a.toNat : Int) - (b.toNat : Int)) (Int.ne_of_gt hpos)
  have hhi := Int.emod_lt_of_pos ((a.toNat : Int) - (b.toNat : Int)) hpos
  simp only [subMod, BitVec.toNat_ofNat]
  omega

/-- All `ENC` does in Configured mode (R101). -/
theorem execEnc_configured {s : State} (h : s.mode = .configured) (data : Byte) :
    execEnc data s =
      if data.toNat < 2 ^ s.cfgK.toNat then
        .next ({ s with encPrev := addMod s.encPrev data s.cfgM }.answer
          { err := .ok, data := addMod s.encPrev data s.cfgM })
      else .next (s.answer { err := .illegalOp }) := by
  rw [execEnc, whenConfigured_configured h, whenWidthFits_enc]

/-- All `DEC` does in Configured mode (R102). -/
theorem execDec_configured {s : State} (h : s.mode = .configured) (data : Byte) :
    execDec data s =
      if data.toNat < 2 ^ s.cfgK.toNat then
        .next ({ s with decPrev := data }.answer { err := .ok, data := subMod data s.decPrev s.cfgM })
      else .next (s.answer { err := .illegalOp }) := by
  rw [execDec, whenConfigured_configured h, whenWidthFits_dec]

end Sys2Proof.Machine
end

