-- ==== Sys2Proof/Laws/SyncExtractor.lean ====
section
/-! SUPPORT. The extractor: its operand checks, the event it picks, and what one invocation does. -/

namespace Sys2Proof.Machine

/-- The least offset of a list of events is one of its offsets and no other is less. -/
theorem leastOffset_some {es : List SyncEvent} {t : Nat} :
    leastOffset es = some t ↔ (∃ e ∈ es, e.offset = t) ∧ ∀ e ∈ es, t ≤ e.offset := by
  induction es generalizing t with
  | nil => simp [leastOffset]
  | cons e es ih =>
    cases hl : leastOffset es with
    | none =>
      have hnil : es = [] := by
        cases es with
        | nil => rfl
        | cons e' es' =>
          unfold leastOffset at hl
          split at hl <;> cases hl
      subst hnil
      simp only [leastOffset, Option.some.injEq, List.mem_singleton, exists_eq_left, forall_eq]
      constructor
      · rintro rfl; exact ⟨rfl, Nat.le_refl _⟩
      · rintro ⟨h, -⟩; exact h
    | some u =>
      obtain ⟨⟨w, hw, rfl⟩, hmin⟩ := ih.mp hl
      simp only [leastOffset, hl, Option.some.injEq, List.mem_cons, exists_eq_or_imp, forall_eq_or_imp]
      constructor
      · rintro rfl
        refine ⟨?_, by omega, fun x hx => by have := hmin x hx; omega⟩
        rcases Nat.le_total e.offset w.offset with h | h
        · exact .inl (by omega)
        · exact .inr ⟨w, hw, by omega⟩
      · rintro ⟨h, hle, hall⟩
        have hwt := hall w hw
        rcases h with h | ⟨x, hx, h⟩
        · omega
        · have := hmin x hx
          omega

theorem leastOffset_none {es : List SyncEvent} : leastOffset es = none ↔ es = [] := by
  cases es with
  | nil => simp [leastOffset]
  | cons e es =>
    simp only [leastOffset, reduceCtorEq, iff_false]
    split <;> simp

theorem validEvent_iff (kind ws n : Nat) (e : SyncEvent) :
    validEvent kind ws n e = true ↔ e.kind = kind ∧ ws ≤ e.offset ∧ e.offset < ws + n := by
  simp [validEvent, and_assoc]

/-- No event is picked exactly when none is valid (R135). -/
theorem pickedOffset_none (s : State) (r : StepRecord) :
    pickedOffset s r = none ↔
      ∀ e ∈ r.events, ¬ (e.kind = s.cfgKind ∧ s.absPos ≤ e.offset ∧ e.offset < s.absPos + r.window.len) := by
  rw [pickedOffset, leastOffset_none, List.filter_eq_nil_iff]
  simp only [validEvent_iff]

/-- The picked offset is the offset of a valid event, and no valid event has a lesser one (R136). -/
theorem pickedOffset_some (s : State) (r : StepRecord) (t : Nat) :
    pickedOffset s r = some t ↔ ∃ e, IsPicked s r e ∧ e.offset = t := by
  rw [pickedOffset, leastOffset_some]
  simp only [List.mem_filter, validEvent_iff, IsPicked]
  constructor
  · rintro ⟨⟨e, ⟨he, hv⟩, rfl⟩, hmin⟩
    exact ⟨e, ⟨he, hv, fun e' he' h1 h2 h3 => hmin e' ⟨he', h1, h2, h3⟩⟩, rfl⟩
  · rintro ⟨e, ⟨he, hv, hmin⟩, rfl⟩
    exact ⟨⟨e, ⟨he, hv⟩, rfl⟩, fun e' ⟨he', h1, h2, h3⟩ => hmin e' he' h1 h2 h3⟩

/-- The operand checks pass exactly within the bounds of R132. -/
theorem stepProblem_none_iff (s : State) (r : StepRecord) :
    stepProblem s r = none ↔
      r.window.len ≤ s.params.maxWindow ∧ r.events.length ≤ s.params.maxEvents ∧ r.out.len ≤ s.params.maxOutcap ∧
        s.absPos + r.window.len ≤ 2 ^ s.params.offsetWidth - 1 := by
  unfold stepProblem
  split
  · simp only [reduceCtorEq, false_iff]; omega
  · split <;> simp only [reduceCtorEq, false_iff, true_iff] <;> omega

theorem stepProblem_windowLimit {s : State} {r : StepRecord}
    (h : s.params.maxWindow < r.window.len ∨ s.params.maxEvents < r.events.length ∨ s.params.maxOutcap < r.out.len) :
    stepProblem s r = some .windowLimit := by
  unfold stepProblem
  rw [if_pos]
  omega

theorem stepProblem_offsetOverflow {s : State} {r : StepRecord} (h1 : r.window.len ≤ s.params.maxWindow)
    (h2 : r.events.length ≤ s.params.maxEvents) (h3 : r.out.len ≤ s.params.maxOutcap)
    (h4 : 2 ^ s.params.offsetWidth - 1 < s.absPos + r.window.len) :
    stepProblem s r = some .offsetOverflow := by
  unfold stepProblem
  rw [if_neg (by omega), if_pos (by omega)]

theorem stepProblem_some {s : State} {r : StepRecord} {e : ErrCode} (h : stepProblem s r = some e) :
    e = .windowLimit ∨ e = .offsetOverflow := by
  unfold stepProblem at h
  split at h
  · injection h with h; exact .inl h.symm
  · split at h
    · injection h with h; exact .inr h.symm
    · cases h

/-- The host's buffer duties are met exactly when the buffers are disjoint and all their bytes exist (R59, R228). -/
theorem bufferProblem_none_iff (m : Memory) (r : StepRecord) :
    bufferProblem m r = none ↔
      (∀ i < r.window.len, ∀ j < r.out.len, r.window.base + i ≠ r.out.base + j) ∧
      (∀ i < r.window.len, (m.read (r.window.base + i)).isSome) ∧
      ∀ j < r.out.len, (m.read (r.out.base + j)).isSome := by
  rw [← Memory.holds_iff, ← Memory.holds_iff]
  have hov : buffersOverlap r.window r.out = false ↔
      ∀ i < r.window.len, ∀ j < r.out.len, r.window.base + i ≠ r.out.base + j := by
    rw [← Bool.not_eq_true, buffersOverlap_iff]
    constructor
    · intro h i hi j hj heq
      exact h ⟨i, hi, j, hj, heq⟩
    · rintro h ⟨i, hi, j, hj, heq⟩
      exact h i hi j hj heq
  rw [← hov]
  unfold bufferProblem
  cases buffersOverlap r.window r.out <;> cases m.holds r.window <;> cases m.holds r.out <;> simp

/-- A `SYNC.STEP` runs when it is ready (R144). -/
theorem execSyncStep_ready {s : State} {r : StepRecord} (h : StepReady s r) :
    execSyncStep r s = .next (extract r s) := by
  rw [execSyncStep, whenConfigured_configured h.configured,
    (stepProblem_none_iff s r).mpr ⟨h.window, h.events, h.outcap, h.offset⟩,
    (bufferProblem_none_iff s.mem r).mpr ⟨h.disjoint, h.readable, h.writable⟩]

/-- All a `SYNC.STEP` can do when it answers a next state. -/
theorem execSyncStep_next {s t : State} {r : StepRecord} (h : execSyncStep r s = .next t) :
    (StepReady s r ∧ t = extract r s) ∨
    ∃ e, t = s.answer { err := e } ∧
      (e = .windowLimit ∨ e = .offsetOverflow ∨ e = .notConfigured ∧ s.mode = .unconfigured ∨
        e = .fatal ∧ s.mode = .fatal) := by
  rcases whenConfigured_next h with ⟨hm, h⟩ | ⟨hm, rfl⟩ | ⟨hm, rfl⟩
  · cases hp : stepProblem s r with
    | some e =>
      rw [hp] at h
      simp only [raiseErr] at h
      injection h with h
      exact .inr ⟨e, h.symm, by rcases stepProblem_some hp with rfl | rfl <;> simp⟩
    | none =>
      rw [hp] at h
      cases hb : bufferProblem s.mem r with
      | some why => rw [hb] at h; cases h
      | none =>
        rw [hb] at h
        injection h with h
        obtain ⟨h1, h2, h3, h4⟩ := (stepProblem_none_iff s r).mp hp
        obtain ⟨h5, h6, h7⟩ := (bufferProblem_none_iff s.mem r).mp hb
        exact .inl ⟨⟨hm, h1, h2, h3, h4, h5, h6, h7⟩, h.symm⟩
  · exact .inr ⟨_, rfl, by simp [hm]⟩
  · exact .inr ⟨_, rfl, by simp [hm]⟩

/-- All one invocation can do: go on copying, skip the window, or start copying at the picked event (R135 to R137). -/
theorem extract_cases (r : StepRecord) (s : State) :
    (s.xs = .copying ∧ extract r s = copyPhase r 0 s.remaining none s) ∨
    (s.xs = .searching ∧ pickedOffset s r = none ∧ extract r s = skipWindow r s) ∨
    (∃ t, s.xs = .searching ∧ pickedOffset s r = some t ∧
      extract r s = copyPhase r (t - s.absPos + matchLead s.params) s.cfgP (some t) s) := by
  cases hx : s.xs with
  | copying => exact .inl ⟨rfl, by simp [extract, hx]⟩
  | searching =>
    cases hp : pickedOffset s r with
    | none => exact .inr (.inl ⟨rfl, rfl, by simp [extract, hx, hp]⟩)
    | some t => exact .inr (.inr ⟨t, rfl, rfl, by simp [extract, hx, hp]⟩)

/-- What the copy of a ready `SYNC.STEP` does to memory and which bytes it delivers (R53, R139, R142). -/
theorem copy_spec {s : State} {r : StepRecord} (h : StepReady s r) (cursor left : Nat) (hc : cursor ≤ r.window.len) :
    let count := copyCount r cursor left
    let m := s.mem.copy count (r.window.base + cursor) r.out.base
    count = min (r.window.len - cursor) (min left r.out.len) ∧
    (∀ k < count, m.read (r.out.base + k) = s.mem.read (r.window.base + cursor + k)) ∧
    (∀ a, (∀ k < count, a ≠ r.out.base + k) → m.read a = s.mem.read a) ∧
    (m.bytes r.out.base count).length = count ∧
    ∀ k < count, (m.bytes r.out.base count)[k]? = s.mem.read (r.window.base + cursor + k) := by
  intro count m
  have hcount : count = min (r.window.len - cursor) (min left r.out.len) := by
    show min (min (r.window.len - cursor) left) r.out.len = _
    omega
  have hread : ∀ a, m.read a =
      if r.out.base ≤ a ∧ a < r.out.base + count then s.mem.read (r.window.base + cursor + (a - r.out.base))
      else s.mem.read a :=
    Memory.read_copy s.mem count (r.window.base + cursor) r.out.base
      (fun k hk => by
        have := h.readable (cursor + k) (by omega)
        rwa [← Nat.add_assoc] at this)
      (fun i hi j hj => by
        have := h.disjoint (cursor + i) (by omega) j (by omega)
        omega)
  have hmoved : ∀ k < count, m.read (r.out.base + k) = s.mem.read (r.window.base + cursor + k) := by
    intro k hk
    rw [hread, if_pos (by omega), Nat.add_sub_cancel_left]
  obtain ⟨hlen, hget⟩ := Memory.bytes_spec m r.out.base count (fun k hk => by
    rw [hmoved k hk]
    have := h.readable (cursor + k) (by omega)
    rwa [← Nat.add_assoc] at this)
  refine ⟨hcount, hmoved, ?_, hlen, fun k hk => by rw [hget k hk, hmoved k hk]⟩
  intro a ha
  rw [hread, if_neg]
  rintro ⟨h1, h2⟩
  exact ha (a - r.out.base) (by omega) (by omega)

end Sys2Proof.Machine
end

