-- ==== Sys2Proof/Laws/Exec.lean ====
section
/-! SUPPORT. All one instruction can do when it answers a next state, and the mode checks over all instructions. -/

namespace Sys2Proof.Machine

/-- The four ways an instruction answers: an error that changes only `last_err` (R192), a failed `CFG` (R173), a successful `CFG` (R172),
or, in Configured mode, the effect of one of the other six. -/
theorem exec_next (i : Instr) {s t : State} (h : exec i s = .next t) :
    (∃ e, t = s.answer { err := e } ∧ e ≠ .ok ∧ e ≠ .cfgBadM ∧ e ≠ .cfgBadPlen ∧ (e = .fatal → s.mode = .fatal) ∧
      (e = .notConfigured → s.mode = .unconfigured) ∧ (e = .cfgLocked → s.mode = .configured ∧ ∃ r, i = .cfg r)) ∨
    (∃ e r, t = { s with mode := .fatal, fatalCode := e }.answer { err := e } ∧ s.mode = .unconfigured ∧ i = .cfg r ∧
      (e = .cfgBadM ∨ e = .cfgBadPlen)) ∨
    (∃ r, t = (loadConfig r s).answer { err := .ok } ∧ s.mode = .unconfigured ∧ i = .cfg r ∧ cfgProblem r = none) ∨
    (s.mode = .configured ∧ t.lastErr = .ok ∧
      ((∃ d, i = .enc d ∧ d.toNat < 2 ^ s.cfgK.toNat ∧
          t = { s with encPrev := addMod s.encPrev d s.cfgM }.answer { err := .ok, data := addMod s.encPrev d s.cfgM }) ∨
       (∃ d, i = .dec d ∧ d.toNat < 2 ^ s.cfgK.toNat ∧
          t = { s with decPrev := d }.answer { err := .ok, data := subMod d s.decPrev s.cfgM }) ∨
       (i = .encRst ∧ t = { s with encPrev := 0 }.answer { err := .ok }) ∨
       (i = .decRst ∧ t = { s with decPrev := 0 }.answer { err := .ok }) ∨
       (i = .syncRst ∧
          t = { s with xs := .searching, remaining := 0, absPos := 0, partialPayload := [] }.answer { err := .ok }) ∨
       (∃ r, i = .syncStep r ∧ StepReady s r ∧ t = extract r s))) := by
  cases i
  case cfg r => 
    rcases execCfg_cases r s with ⟨hm, h'⟩ | ⟨hm, h'⟩ | ⟨e, hm, hp, h'⟩ | ⟨hm, hp, h'⟩ <;> rw [exec, h'] at h <;> injection h with h <;> subst h
    · left; exact ⟨_, rfl, by simp [hm]⟩
    · left; exact ⟨_, rfl, by simp [hm]⟩
    · right; left; exact ⟨e, r, rfl, hm, rfl, cfgProblem_some hp⟩
    · right; right; left; exact ⟨r, rfl, hm, rfl, hp⟩
  case syncStep r =>
    rcases execSyncStep_next h with ⟨hr, rfl⟩ | ⟨e, rfl, he⟩
    · right; right; right
      refine ⟨hr.configured, ?_, .inr (.inr (.inr (.inr (.inr ⟨r, rfl, hr, rfl⟩))))⟩
      rcases extract_cases r s with ⟨_, h'⟩ | ⟨_, _, h'⟩ | ⟨t, _, _, h'⟩ <;> rw [h'] <;> simp [copyPhase]
    · left
      exact ⟨e, rfl, by rcases he with rfl | rfl | ⟨rfl, hm⟩ | ⟨rfl, hm⟩ <;> simp [*]⟩
  case enc d =>
    rcases whenConfigured_next h with ⟨hm, h⟩ | ⟨hm, rfl⟩ | ⟨hm, rfl⟩
    · rw [whenWidthFits_enc] at h
      split at h <;> injection h with h <;> subst h
      · right; right; right; exact ⟨hm, by simp, .inl ⟨d, rfl, by assumption, rfl⟩⟩
      · left; exact ⟨_, rfl, by simp⟩
    all_goals left; exact ⟨_, rfl, by simp [hm]⟩
  case dec d =>
    rcases whenConfigured_next h with ⟨hm, h⟩ | ⟨hm, rfl⟩ | ⟨hm, rfl⟩
    · rw [whenWidthFits_dec] at h
      split at h <;> injection h with h <;> subst h
      · right; right; right; exact ⟨hm, by simp, .inr (.inl ⟨d, rfl, by assumption, rfl⟩)⟩
      · left; exact ⟨_, rfl, by simp⟩
    all_goals left; exact ⟨_, rfl, by simp [hm]⟩
  all_goals
    rcases whenConfigured_next h with ⟨hm, h⟩ | ⟨hm, rfl⟩ | ⟨hm, rfl⟩
    · injection h with h; subst h; right; right; right; exact ⟨hm, by simp, by simp⟩
    all_goals left; exact ⟨_, rfl, by simp [hm]⟩


/-- The mode checks that come before everything else (R193 steps 2 and 3). -/
theorem exec_gated (i : Instr) (s : State) :
    (s.mode = .fatal → exec i s = .next (s.answer { err := .fatal })) ∧
    (s.mode = .unconfigured → (∀ r, i ≠ .cfg r) → exec i s = .next (s.answer { err := .notConfigured })) := by
  constructor
  · intro h
    cases i <;> simp [exec, execEnc, execDec, execEncRst, execDecRst, execSyncStep, execSyncRst, execCfg, h, whenConfigured, raiseErr]
  · intro h hc
    cases i
    case cfg r => exact absurd rfl (hc r)
    all_goals simp [exec, execEnc, execDec, execEncRst, execDecRst, execSyncStep, execSyncRst, h, whenConfigured, raiseErr]

end Sys2Proof.Machine
end

