-- ==== Sys2Proof/Laws/PerInstr.lean ====
section
/-! SUPPORT. A statement about every instruction as written, one lemma per constructor: the encoder leaves the reserved field 0. -/

namespace Sys2Proof.Laws.ReservedField

open Sys2Proof

/-- The command word of an instruction has `rsv = 0` and an opcode of the map (R76, R77, R79). -/
def Statement (i : Instr) : Prop :=
  rsvField (encode i).word = 0 ∧ 1 ≤ (opField (encode i).word).toNat ∧ (opField (encode i).word).toNat ≤ 7

theorem enc (data : Byte) : Statement (.enc data) := by
  simp [Statement, encode, Command.ofWord, opField_cmdWord, rsvField_cmdWord]

theorem dec (data : Byte) : Statement (.dec data) := by
  simp [Statement, encode, Command.ofWord, opField_cmdWord, rsvField_cmdWord]

theorem encRst : Statement .encRst := by
  simp [Statement, encode, Command.ofWord, opField_cmdWord, rsvField_cmdWord]

theorem decRst : Statement .decRst := by
  simp [Statement, encode, Command.ofWord, opField_cmdWord, rsvField_cmdWord]

theorem syncStep (r : StepRecord) : Statement (.syncStep r) := by
  simp [Statement, encode, Command.ofWord, opField_cmdWord, rsvField_cmdWord]

theorem syncRst : Statement .syncRst := by
  simp [Statement, encode, Command.ofWord, opField_cmdWord, rsvField_cmdWord]

theorem cfg (r : CfgRecord) : Statement (.cfg r) := by
  simp [Statement, encode, Command.ofWord, opField_cmdWord, rsvField_cmdWord]

end Sys2Proof.Laws.ReservedField
end

