-- ==== Sys2Proof/Tests/Slice0.lean ====
section
/-! SUPPORT. The model's own tests, with expected results from spec/95_test_vectors.md or written out from the encoding rules,
and for every statement with hypotheses a named witness that meets them. -/

namespace Sys2Proof.Tests

open Sys2Proof Sys2Proof.Machine

/-! ## Helpers -/

/-- The next state of an outcome, if it is one. -/
def nextOf : Host.Outcome State Fault Refusal → Option State
  | .next t => some t
  | _ => none

/-- A field of the next state of one instruction. -/
def after {α : Type} (i : Instr) (s : State) (f : State → α) : Option α := (nextOf (exec i s)).map f

/-- The convention of spec/95_test_vectors.md: Configured, `M = 4`, `P = 4`, `MATCH_KIND = 1`, Searching at 0.
Host memory holds `bytes(0..12)` at 0 and sixteen bytes of room at 100. -/
def base : State :=
  { State.reset with
    mode := .configured, cfgM := 4, cfgK := 2, cfgP := 4, cfgKind := 1, cfgPattern := ⟨8, 0b10110001⟩
    mem := (Memory.writeBytes [] 0 [0, 1, 2, 3, 4, 5, 6, 7, 8, 9, 10, 11]).writeBytes 100
      [0, 0, 0, 0, 0, 0, 0, 0, 0, 0, 0, 0, 0, 0, 0, 0] }

/-- `C, 2, 6` of vector SX-5, with the two bytes SX-4 gathered. -/
def copying : State := { base with xs := .copying, remaining := 2, absPos := 6, partialPayload := [4, 5] }

/-- The `SYNC.STEP` record of the window `bytes(lo..hi)` with `cap` bytes of room. -/
def window (lo hi : Nat) (ev : List SyncEvent) (cap : Nat) : StepRecord := ⟨⟨lo, hi - lo⟩, ev, ⟨100, cap⟩⟩

/-- A block that a failed `CFG` made Fatal. -/
def fatalState : State := { State.reset with mode := .fatal, fatalCode := .cfgBadM, lastErr := .cfgBadM }

/-- `CFG m=4 plen=256 kind=1` (vector CF-1). -/
def goodCfg : CfgRecord := ⟨4, 256, 1, ⟨8, 0b10110001⟩⟩

/-- `base` with acts pending. -/
def withActs (acts : List HostInput) (s : State) : State := { s with pending := acts }

theorem base_inv : base.Inv := by
  constructor <;> simp [base, State.reset, Params.default, Memory.wf_writeBytes, Memory.wf]

theorem copying_inv : copying.Inv := by
  constructor <;> simp [copying, base, State.reset, Params.default, Memory.wf_writeBytes, Memory.wf]

theorem reset_inv : State.reset.Inv := by
  constructor <;> simp [State.reset, Params.default]

/-! ## Well-formedness: each check refuses an ill-formed term -/

theorem smoke_plen_too_wide : (Instr.cfg ⟨4, 2 ^ 32, 1, ⟨8, 0⟩⟩).wf .default = false := by decide

theorem smoke_cfg_kind_too_wide : (Instr.cfg ⟨4, 4, 256, ⟨8, 0⟩⟩).wf .default = false := by decide

theorem smoke_pattern_too_wide : (Instr.cfg ⟨4, 4, 1, ⟨8, 2 ^ 64⟩⟩).wf .default = false := by decide

theorem smoke_event_kind_too_wide : (Instr.syncStep ⟨⟨0, 0⟩, [⟨256, 0⟩], ⟨0, 0⟩⟩).wf .default = false := by decide

theorem smoke_event_offset_too_wide : (Instr.syncStep ⟨⟨0, 0⟩, [⟨1, 2 ^ 64⟩], ⟨0, 0⟩⟩).wf .default = false := by decide

theorem smoke_wellFormed : (Instr.cfg goodCfg).wf .default = true ∧
    (Instr.syncStep (window 0 10 [⟨1, 3⟩] 16)).wf .default = true := by decide

/-! ## Decoding: words written out from the opcode map (R76, R77, R81) -/

theorem test_decode_enc : decode (.ofWord 0b0001_0000_0000_0011) = .ok (.enc 3) := by decide

theorem test_decode_dec : decode (.ofWord 0b0010_0000_0000_0010) = .ok (.dec 2) := by decide

theorem test_decode_encRst : decode (.ofWord 0b0011_0000_0000_0000) = .ok .encRst := by decide

theorem test_decode_decRst : decode (.ofWord 0b0100_0000_0000_0000) = .ok .decRst := by decide

theorem test_decode_syncStep :
    decode ⟨0b0101_0000_0000_0000, .zero, window 0 10 [⟨1, 3⟩] 16⟩ = .ok (.syncStep (window 0 10 [⟨1, 3⟩] 16)) := by decide

theorem test_decode_syncRst : decode (.ofWord 0b0110_0000_0000_0000) = .ok .syncRst := by decide

theorem test_decode_cfg : decode ⟨0b0111_0000_0000_0000, goodCfg, .zero⟩ = .ok (.cfg goodCfg) := by decide

/-- Vectors EN-2 to EN-5: `rsv != 0`, data on `ENC.RST`, reserved opcodes. -/
theorem test_decode_rejects :
    decode (.ofWord 0x1100) = .error .reservedBits ∧ decode (.ofWord 0x3001) = .error .strayData ∧
    decode (.ofWord 0x0000) = .error .reservedOpcode ∧ decode (.ofWord 0x8000) = .error .reservedOpcode ∧
    decode (.ofWord 0xF000) = .error .reservedOpcode := by decide

theorem test_decodeTableWord :
    decodeTableWord 16 0x1002 = some (.enc 2) ∧ decodeTableWord 16 0x7000 = some (.cfg .zero) ∧
    decodeTableWord 16 0x9000 = none := by decide

/-- The table word is the first act the block takes: before configuration an `ENC` answers `NOT_CONFIGURED` (vector EN-6). -/
theorem test_withFetchWord_runs :
    (nextOf (step (State.reset.withFetchWord 16 0x1001))).map (fun t => (t.lastErr, t.pending)) =
      some (.notConfigured, []) := by decide

/-! ## Codec -/

/-- Rule R101's example: `M = 4`, `enc_prev = 3`, `ENC #3` gives 2. -/
theorem test_enc_wraps : after (.enc 3) { base with encPrev := 3 } (fun t => (t.encPrev, t.resp)) =
    some (2, some { err := .ok, data := 2 }) := by decide

/-- Vector EN-1: `ENC #4` with `M = 4` is `ILLEGAL_OP`. -/
theorem test_enc_too_wide : after (.enc 4) { base with encPrev := 3 } (fun t => (t.encPrev, t.lastErr)) =
    some (3, .illegalOp) := by decide

/-- Rule R102's corner: `M = 4`, `dec_prev = 3`, `s = 2` gives `(2 - 3) mod 4 = 3`. -/
theorem test_dec_wraps : after (.dec 2) { base with decPrev := 3 } (fun t => (t.decPrev, t.resp)) =
    some (2, some { err := .ok, data := 3 }) := by decide

/-- Vector LC-M256, second step: `M = 256`, `dec_prev = 200`, `DEC #44` gives 100. -/
theorem test_dec_full_byte :
    after (.dec 44) { base with cfgM := 256, cfgK := 8, decPrev := 200 } (fun t => t.resp) =
      some (some { err := .ok, data := 100 }) := by decide

/-- Vector LC-Z1. -/
theorem test_encRst : after .encRst { base with encPrev := 2, decPrev := 3 } (fun t => (t.encPrev, t.decPrev, t.lastErr)) =
    some (0, 3, .ok) := by decide

/-- Vector LC-Z2. -/
theorem test_decRst : after .decRst { base with decPrev := 3 } (fun t => (t.encPrev, t.decPrev, t.lastErr)) =
    some (0, 0, .ok) := by decide

/-! ## Extractor -/

/-- Vector SX-9a: kind 2 is foreign, and of offsets 6 and 2 the least wins. -/
theorem test_syncStep_detects :
    after (.syncStep (window 0 10 [⟨1, 6⟩, ⟨1, 2⟩, ⟨2, 1⟩] 16)) base
      (fun t => (t.resp, t.mem.bytes 100 5, t.absPos, t.payloads)) =
    some (some { err := .ok, consumed := 6, produced := 4, payloadDone := true, detectValid := true, detectOffset := 2 },
      [2, 3, 4, 5, 0], 6, [[2, 3, 4, 5]]) := by decide

/-- Vector SX-5: Copying goes on, the event at 7 is ignored and the payload of SX-4 completes. -/
theorem test_syncStep_completes :
    after (.syncStep (window 6 10 [⟨1, 7⟩] 16)) copying (fun t => (t.resp, t.remaining, t.absPos, t.payloads)) =
    some (some { err := .ok, consumed := 2, produced := 2, payloadDone := true }, 0, 8, [[4, 5, 6, 7]]) := by
  decide

/-- Vector SX-18: `SYNC.RST` in Copying drops the partial payload. -/
theorem test_syncRst : after .syncRst copying (fun t => (t.xs, t.remaining, t.absPos, t.partialPayload)) =
    some (.searching, 0, 0, []) := by decide

/-! ## Configuration and status -/

/-- Vector CF-1. -/
theorem test_cfg_legal : after (.cfg goodCfg) .reset (fun t => (t.mode, t.cfgK, t.cfgP, t.lastErr)) =
    some (.configured, 2, 256, .ok) := by decide

/-- Vector CF-6: `m = 6`, `plen = 0` reports `CFG_BAD_M`, since `M` is checked first. -/
theorem test_cfg_m_first : after (.cfg ⟨6, 0, 1, ⟨8, 0⟩⟩) .reset (fun t => (t.mode, t.fatalCode, t.lastErr)) =
    some (.fatal, .cfgBadM, .cfgBadM) := by decide

/-- PROG-4's end state reads `STATUS = 0x0342`. -/
theorem test_status_word : statusWord { fatalState with lastErr := .fatal } = 0x0342 := by decide

/-- R87: `ENC.BYTE #0xB4` under `K = 2`. -/
theorem test_encByte : Pseudo.expand 2 (.encByte 0xB4) = [.enc 2, .enc 3, .enc 1, .enc 0] := by decide

/-- R86: the assembler line of the first command of PROG-1, whose pattern is `0b10110001`. -/
theorem test_asm_cfg : (Instr.cfg ⟨4, 4, 1, ⟨8, 0b10110001⟩⟩).asm [] = "CFG   m=4 plen=4 kind=1 pattern=0b10110001" := by
  decide

/-! ## Witnesses: states and operands that meet the hypotheses of each statement -/

theorem withActs_inv {s : State} {acts : List HostInput} (h : s.Inv) : (withActs acts s).Inv :=
  ⟨h.alphabet, h.packet, h.symbols, h.searching, h.copying, h.atRest, h.blank, h.fatal, h.fatalCode, h.payloads,
    h.widths, h.offset, h.memory⟩

theorem fatalState_inv : fatalState.Inv := by
  constructor <;> simp [fatalState, State.reset, Params.default]

/-- `base` one byte below the top of the offset space. -/
def nearTop : State := { base with absPos := 2 ^ 64 - 2 }

theorem nearTop_inv : nearTop.Inv := by
  constructor <;> simp [nearTop, base, State.reset, Params.default, Memory.wf_writeBytes, Memory.wf]

/-- `base` with the switch of I17 on. -/
def afterMatch : State := { base with params := { base.params with startAfterMatch := true } }

theorem afterMatch_inv : afterMatch.Inv := by
  constructor <;> simp [afterMatch, base, State.reset, Params.default, Memory.wf_writeBytes, Memory.wf]

/-- `base` with `P = 1`. -/
def oneByte : State := { base with cfgP := 1 }

theorem oneByte_inv : oneByte.Inv := by
  constructor <;> simp [oneByte, base, State.reset, Params.default, Memory.wf_writeBytes, Memory.wf]

theorem witness_HardwareResetSetsResetTable : (withActs [.reset] copying).pending = [.reset] := rfl

theorem witness_HostActsTouchOnlyHostSide :
    (withActs [.reset] copying).pending = [.reset] ∧
    (withActs [.write 98 [7, 8, 9]] base).pending = [.write 98 [7, 8, 9]] := ⟨rfl, rfl⟩

theorem witness_StepKeepsInvariants :
    (withActs [.command (encode (.enc 3))] base).Inv ∧
    (nextOf (step (withActs [.command (encode (.enc 3))] base))).isSome = true := ⟨withActs_inv base_inv, by decide⟩

theorem witness_StepRunsDecodedInstruction :
    (withActs [.command ⟨0x7000, goodCfg, .zero⟩] .reset).pending = [.command ⟨0x7000, goodCfg, .zero⟩] ∧
    decode ⟨0x7000, goodCfg, .zero⟩ = .ok (.cfg goodCfg) ∧ (Instr.cfg goodCfg).wf State.reset.params = true := by decide

theorem witness_IdleBlockHoldsState : copying.pending = [] := rfl

theorem witness_ReservedWordsAnswerIllegalOp :
    rsvField 0x1100 ≠ 0 ∧ opField 0x0000 = 0x0 ∧ 0x8 ≤ (opField 0x8000).toNat ∧ 0x8 ≤ (opField 0xF0FF).toNat ∧
    (withActs [.command (.ofWord 0x8000)] fatalState).pending = [.command (.ofWord 0x8000)] := by decide

/-- At the top of the range: `data = 4` and `data = 3` for `K = 2`, and `data = 255` for `K = 8`, where no bit is over. -/
theorem witness_OperandBitsOutsideGroupAreIllegal :
    base.Inv ∧ base.mode = .configured ∧ (4 : Byte) >>> base.cfgK.toNat ≠ 0 ∧ (3 : Byte) >>> base.cfgK.toNat = 0 ∧
    (255 : Byte) >>> (8 : BitVec 4).toNat = 0 ∧ 0x3 ≤ (opField 0x3001).toNat ∧ dataField 0x3001 ≠ 0 :=
  ⟨base_inv, by decide, by decide, by decide, by decide, by decide, by decide⟩

theorem witness_ChecksRunInOrder_modes :
    decode (.ofWord 0x8000) = .error .reservedOpcode ∧ decode (encode (.enc 4)) = .ok (.enc 4) ∧
    (fatalState.mode = .fatal ∧ State.reset.mode = .unconfigured ∧ base.mode = .configured) ∧
    decodeWidth base.cfgK.toNat (.enc 4) = .error .groupTooWide := by decide

/-- `m = 257` lies just over the bound, `m = 256` with `plen = 0` on it. -/
theorem witness_ChecksRunInOrder_cfg :
    (¬ ∃ k, 1 ≤ k ∧ k ≤ 8 ∧ (257 : BitVec 9).toNat = 2 ^ k) ∧ (¬ ∃ k, 1 ≤ k ∧ k ≤ 8 ∧ (1 : BitVec 9).toNat = 2 ^ k) ∧
    (∃ k, 1 ≤ k ∧ k ≤ 8 ∧ (256 : BitVec 9).toNat = 2 ^ k) ∧ (∃ k, 1 ≤ k ∧ k ≤ 8 ∧ (2 : BitVec 9).toNat = 2 ^ k) ∧
    goodCfg.plen = 256 := by
  refine ⟨?_, ?_, ⟨8, by decide⟩, ⟨1, by decide⟩, rfl⟩
  · rintro ⟨k, h1, h8, hk⟩; interval_cases k <;> simp at hk
  · rintro ⟨k, h1, h8, hk⟩; interval_cases k <;> simp at hk

/-- A window one byte over its bound, one that would pass the top offset by one byte, and one that just fits. -/
theorem witness_ChecksRunInOrder_step :
    base.params.maxWindow < (window 0 65536 [] 0).window.len ∧
    2 ^ nearTop.params.offsetWidth - 1 < nearTop.absPos + (window 0 2 [] 0).window.len ∧
    nearTop.absPos + (window 0 1 [] 0).window.len ≤ 2 ^ nearTop.params.offsetWidth - 1 ∧
    (nearTop.mode = .configured ∧ decodeWidth nearTop.cfgK.toNat (.syncStep (window 0 1 [] 0)) = .ok (.syncStep (window 0 1 [] 0)) ∧
      (window 0 1 [] 0).window.len ≤ nearTop.params.maxWindow) := by decide

theorem witness_ModeGatesOperations :
    fatalState.mode = .fatal ∧ State.reset.mode = .unconfigured ∧ base.mode = .configured ∧
    (nextOf (exec .encRst base)).isSome = true := by decide

/-- The two kinds of step that change the mode: a `CFG` and a hardware reset. -/
theorem witness_ModeGatesOperations_moves :
    (nextOf (step (withActs [.command (encode (.cfg goodCfg))] .reset))).map State.mode = some .configured ∧
    (nextOf (step (withActs [.reset] copying))).map State.mode = some .unconfigured := by decide

/-- For each line an operation that does change a register it names. -/
theorem witness_RegistersChangeOnlyByTheirWriters :
    (nextOf (operate (encode (.cfg goodCfg)) .reset)).map State.mode = some .configured ∧
    ((nextOf (operate (encode (.enc 3)) base)).map State.encPrev = some 3 ∧
      (nextOf (operate (encode (.dec 3)) base)).map State.decPrev = some 3) ∧
    (nextOf (operate (encode (.syncStep (window 0 10 [⟨1, 3⟩] 2))) base)).map State.xs = some .copying ∧
    (nextOf (operate (encode (.syncStep (window 6 10 [] 2))) copying)).map State.payloads = some [[4, 5, 6, 7]] ∧
    ((nextOf (operate (encode (.cfg goodCfg)) .reset)).map State.cfgM = some 4 ∧
      (nextOf (operate (encode (.cfg .zero)) .reset)).map State.fatalCode = some .cfgBadM) := by decide

theorem witness_ErrorsChangeOnlyLastErr :
    ((nextOf (operate (encode (.enc 4)) base)).map State.lastErr) = some .illegalOp ∧
    ((nextOf (operate (encode (.cfg ⟨3, 4, 1, ⟨8, 0⟩⟩)) .reset)).map State.lastErr) = some .cfgBadM ∧
    ((nextOf (operate (encode (.cfg ⟨4, 0, 1, ⟨8, 0⟩⟩)) .reset)).map State.lastErr) = some .cfgBadPlen := by decide

/-- An answer, and each refusal at the edge of its duty: a `plen` one bit too wide for its port, a window and an output that share
one byte, a window one byte past the host's, and an output one byte past it. -/
theorem witness_EveryOperationAnswersOnce :
    (nextOf (operate (encode (.enc 3)) base)).isSome = true ∧
    operate (encode (.cfg ⟨4, 2 ^ 32, 1, ⟨8, 0⟩⟩)) .reset = .refused .notPresentable ∧
    operate (encode (.syncStep ⟨⟨0, 4⟩, [], ⟨3, 4⟩⟩)) base = .refused .bufferOverlap ∧
    (operate (encode (.syncStep ⟨⟨9, 4⟩, [], ⟨100, 2⟩⟩)) base = .refused .windowUnreadable ∧
      operate (encode (.syncStep ⟨⟨0, 4⟩, [], ⟨115, 2⟩⟩)) base = .refused .outputUnwritable) :=
  ⟨by decide, rfl, rfl, rfl, rfl⟩

theorem witness_FatalIsStickyUntilReset :
    fatalState.mode = .fatal ∧ .reset ∉ (withActs [.command (encode .encRst), .command (encode .syncRst)] fatalState).pending ∧
    (nextOf (Host.Core.run core 2 (withActs [.command (encode .encRst), .command (encode .syncRst)] fatalState))).isSome = true ∧
    ∀ base bytes, .write base bytes ∉
      (withActs [.command (encode .encRst), .command (encode .syncRst)] fatalState).pending :=
  ⟨by decide, by decide, by decide, by simp [withActs]⟩

theorem witness_ConfigurationIsImmutable :
    base.mode = .configured ∧ fatalState.mode = .fatal ∧
    .reset ∉ (withActs [.command (encode (.cfg goodCfg)), .command (encode .decRst)] base).pending ∧
    (nextOf (Host.Core.run core 2 (withActs [.command (encode (.cfg goodCfg)), .command (encode .decRst)] base))).isSome = true := by
  decide

theorem witness_PatternIsNeverRead : (0x6 : BitVec 4) ≠ 0x5 ∧ base.mode ≠ .unconfigured := by decide

theorem witness_UnitsAreIsolated :
    (∃ data, Instr.enc 3 = .enc data) ∧ (∃ data, Instr.dec 3 = .dec data) ∧
    ∃ r, Instr.syncStep (window 0 10 [⟨1, 3⟩] 16) = .syncStep r := ⟨⟨_, rfl⟩, ⟨_, rfl⟩, ⟨_, rfl⟩⟩

/-- The greatest group and the least value over it, in each mode. -/
theorem witness_EncEncodesDifferentially :
    base.Inv ∧ base.mode = .configured ∧ (3 : Byte).toNat < 2 ^ base.cfgK.toNat ∧ 2 ^ base.cfgK.toNat ≤ (4 : Byte).toNat ∧
    State.reset.Inv ∧ State.reset.mode = .unconfigured ∧ fatalState.Inv ∧ fatalState.mode = .fatal :=
  ⟨base_inv, by decide, by decide, by decide, reset_inv, by decide, fatalState_inv, by decide⟩

theorem witness_DecDecodesDifferentially :
    base.Inv ∧ base.mode = .configured ∧ (3 : Byte).toNat < 2 ^ base.cfgK.toNat ∧ 2 ^ base.cfgK.toNat ≤ (4 : Byte).toNat ∧
    (0 : Byte) = base.decPrev ∧ base.decPrev = 0 :=
  ⟨base_inv, by decide, by decide, by decide, by decide, by decide⟩

theorem witness_CodecResetsClearOneRegister :
    base.mode = .configured ∧ State.reset.mode = .unconfigured ∧ fatalState.mode = .fatal ∧
    (opField 0x3001 = 0x3 ∧ opField 0x4080 = 0x4 ∧ dataField 0x3001 ≠ 0 ∧ dataField 0x4080 ≠ 0) := by decide

/-- The groups of vectors LC-R1 to LC-R4, at the greatest rotation. -/
theorem witness_RotationCancels :
    base.Inv ∧ base.mode = .configured ∧ base.encPrev = 0 ∧ base.decPrev = 0 ∧ 3 < base.cfgM.toNat ∧
    ∀ x ∈ ([1, 2, 3, 0] : List Byte), x.toNat < base.cfgM.toNat :=
  ⟨base_inv, by decide, by decide, by decide, by decide, by decide⟩

theorem witness_NoRotationRoundTrip :
    base.Inv ∧ base.mode = .configured ∧ base.encPrev = 0 ∧ base.decPrev = 0 ∧
    ∀ x ∈ ([1, 2, 3, 0] : List Byte), x.toNat < base.cfgM.toNat :=
  ⟨base_inv, by decide, by decide, by decide, by decide⟩

/-- The groups of vector LC-R5 with `r1 = 0`, `r2 = 1`, `j = 2`; the indices 0, 2 and 4 fall under its three clauses. -/
theorem witness_RotationChangeCorruptsOneGroup :
    base.Inv ∧ base.mode = .configured ∧ base.encPrev = 0 ∧ base.decPrev = 0 ∧
    (0 < base.cfgM.toNat ∧ 1 < base.cfgM.toNat ∧ 1 ≤ 2) ∧
    ∀ x ∈ ([1, 2, 3, 0, 1] : List Byte), x.toNat < base.cfgM.toNat :=
  ⟨base_inv, by decide, by decide, by decide, by decide, by decide⟩

/-- The groups of vector LC-R6 with `e = 1`, `j = 2`; the indices 2, 3 and 4 fall under its three clauses. -/
theorem witness_SymbolErrorCorruptsTwoGroups :
    base.Inv ∧ base.mode = .configured ∧ base.encPrev = 0 ∧ base.decPrev = 0 ∧ (0 < 1 ∧ 1 < base.cfgM.toNat) ∧
    ∀ x ∈ ([1, 2, 3, 0, 1] : List Byte), x.toNat < base.cfgM.toNat :=
  ⟨base_inv, by decide, by decide, by decide, by decide, by decide⟩

theorem witness_LegalCfgLoadsConfiguration :
    State.reset.mode = .unconfigured ∧ goodCfg.m.toNat = 2 ^ 2 ∧ 1 ≤ goodCfg.plen ∧ (256 : BitVec 9).toNat = 2 ^ 8 := by decide

theorem witness_LegalCfgLoadsConfiguration_inv : State.reset.Inv := reset_inv

/-- The three clauses, at `m = 257`, at `m = 256` with `plen = 0`, and at `m = 2` with `plen = 1`. -/
theorem witness_IllegalCfgIsFatal :
    State.reset.mode = .unconfigured ∧ (¬ ∃ k, 1 ≤ k ∧ k ≤ 8 ∧ (257 : BitVec 9).toNat = 2 ^ k) ∧
    (∃ k, 1 ≤ k ∧ k ≤ 8 ∧ (256 : BitVec 9).toNat = 2 ^ k) ∧ (∃ k, 1 ≤ k ∧ k ≤ 8 ∧ (2 : BitVec 9).toNat = 2 ^ k) ∧
    ((nextOf (exec (.cfg ⟨257, 1, 1, ⟨8, 0⟩⟩) .reset)).map State.lastErr) = some .cfgBadM :=
  ⟨by decide, witness_ChecksRunInOrder_cfg.1, ⟨8, by decide⟩, ⟨1, by decide⟩, by decide⟩

theorem witness_SyncStepOperandChecks :
    (base.mode = .configured ∧ base.params.maxWindow < (window 0 65536 [] 0).window.len ∧
      base.params.maxOutcap < (window 0 0 [] 65536).out.len) ∧
    (nearTop.mode = .configured ∧ (window 0 2 [] 0).window.len ≤ nearTop.params.maxWindow ∧
      2 ^ nearTop.params.offsetWidth - 1 < nearTop.absPos + (window 0 2 [] 0).window.len) ∧
    State.reset.mode = .unconfigured ∧ fatalState.mode = .fatal := by decide

theorem witness_AbsPosNeverWraps_overflow :
    nearTop.Inv ∧ nearTop.mode = .configured ∧
    2 ^ nearTop.params.offsetWidth - 1 < nearTop.absPos + (window 0 2 [] 0).window.len := ⟨nearTop_inv, by decide, by decide⟩

/-- The greatest window that still fits. -/
theorem witness_AbsPosNeverWraps_fits :
    after (.syncStep (window 0 1 [] 0)) nearTop (fun t => (t.resp.isSome, t.absPos)) = some (true, 2 ^ 64 - 1) := by decide

/-- Windows and outputs that share one byte, that hold a byte the host lacks, and that lack room for one. -/
theorem witness_OverlappingBuffersRefused :
    (base.mode = .configured ∧ base.absPos + 4 ≤ 2 ^ base.params.offsetWidth - 1) ∧
    (∃ i < 4, ∃ j < 4, 0 + i = 3 + j) ∧
    ((∀ i < 4, ∀ j < 2, 9 + i ≠ 100 + j) ∧ ∃ i < 4, base.mem.read (9 + i) = none) ∧
    ((∀ i < 4, ∀ j < 2, 0 + i ≠ 115 + j) ∧ (∀ i < 4, (base.mem.read (0 + i)).isSome) ∧
      ∃ j < 2, base.mem.read (115 + j) = none) := by decide

theorem ready_search : StepReady base (window 0 10 [⟨1, 12⟩, ⟨2, 3⟩] 16) := by constructor <;> decide

theorem ready_detect : StepReady base (window 0 10 [⟨1, 3⟩] 2) := by constructor <;> decide

theorem ready_copying : StepReady copying (window 6 10 [⟨1, 7⟩] 16) := by constructor <;> decide

theorem picked_detect : IsPicked base (window 0 10 [⟨1, 3⟩] 2) ⟨1, 3⟩ := by unfold IsPicked; decide

theorem ready_lastByte (cap : Nat) (h : cap = 0 ∨ cap = 1) : StepReady base (window 0 10 [⟨1, 9⟩] cap) := by
  obtain rfl | rfl := h <;> constructor <;> decide

/-- Events of the matching kind just past the window, and of another kind in it. -/
theorem witness_SearchingWithoutEventConsumesWindow :
    base.Inv ∧ StepReady base (window 0 10 [⟨1, 12⟩, ⟨2, 3⟩] 16) ∧ base.xs = .searching ∧
    ∀ e ∈ (window 0 10 [⟨1, 12⟩, ⟨2, 3⟩] 16).events, ¬ (e.kind = base.cfgKind ∧ base.absPos ≤ e.offset ∧ e.offset < base.absPos + 10) :=
  ⟨base_inv, ready_search, by decide, by decide⟩

theorem witness_SyncStepCopies_copying :
    copying.Inv ∧ StepReady copying (window 6 10 [⟨1, 7⟩] 16) ∧ copying.xs = .copying := ⟨copying_inv, ready_copying, by decide⟩

theorem witness_SyncStepCopies_detecting :
    base.Inv ∧ StepReady base (window 0 10 [⟨1, 3⟩] 2) ∧ base.params.startAfterMatch = false ∧ base.xs = .searching ∧
    IsPicked base (window 0 10 [⟨1, 3⟩] 2) ⟨1, 3⟩ := ⟨base_inv, ready_detect, by decide, by decide, picked_detect⟩

/-- With the switch on, an event at the last byte of the window. -/
theorem witness_StartAfterMatchSwitch :
    afterMatch.Inv ∧ StepReady afterMatch (window 0 10 [⟨1, 9⟩] 16) ∧ afterMatch.params.startAfterMatch = true ∧
    afterMatch.xs = .searching ∧ IsPicked afterMatch (window 0 10 [⟨1, 9⟩] 16) ⟨1, 9⟩ ∧
    (⟨1, 9⟩ : SyncEvent).offset + 1 = afterMatch.absPos + 10 :=
  ⟨afterMatch_inv, by constructor <;> decide, by decide, by decide, by unfold IsPicked; decide, by decide⟩

theorem witness_EventsWhileCopyingIgnored :
    (window 6 10 [⟨1, 7⟩] 16).events.length ≤ copying.params.maxEvents ∧ copying.xs = .copying ∧
    IsPicked base (window 0 10 [⟨1, 3⟩] 2) ⟨1, 3⟩ ∧
    IsPicked base { window 0 10 [⟨1, 3⟩] 2 with events := [⟨1, 5⟩, ⟨1, 3⟩] } ⟨1, 3⟩ :=
  ⟨by decide, by decide, picked_detect, by unfold IsPicked; decide⟩

theorem witness_InvalidEventsDiscarded :
    (window 0 10 [⟨1, 12⟩, ⟨2, 3⟩, ⟨1, 3⟩] 16).events.length ≤ base.params.maxEvents ∧ (window 4 4 [⟨1, 4⟩] 16).window.len = 0 := by
  decide

theorem witness_CountBounds :
    base.Inv ∧ after (.syncStep (window 0 10 [⟨1, 3⟩] 2)) base (fun t => t.resp) =
      some (some { err := .ok, consumed := 5, produced := 2, detectValid := true, detectOffset := 3 }) :=
  ⟨base_inv, by decide⟩

/-- A delivery that leaves a payload unfinished and one that finishes it. -/
theorem witness_PayloadSequence :
    base.Inv ∧ copying.Inv ∧
    after (.syncStep (window 0 10 [⟨1, 3⟩] 2)) base (fun t => (t.xs, t.resp.map Response.payloadDone)) = some (.copying, some false) ∧
    after (.syncStep (window 6 10 [] 2)) copying (fun t => (t.xs, t.resp.map Response.payloadDone)) = some (.searching, some true) :=
  ⟨base_inv, copying_inv, by decide, by decide⟩

theorem witness_EventAtLastByte :
    base.Inv ∧ StepReady base (window 0 10 [⟨1, 9⟩] 1) ∧ StepReady base (window 0 10 [⟨1, 9⟩] 0) ∧
    IsPicked base (window 0 10 [⟨1, 9⟩] 1) ⟨1, 9⟩ ∧ IsPicked base (window 0 10 [⟨1, 9⟩] 0) ⟨1, 9⟩ ∧
    (base.params.startAfterMatch = false ∧ base.xs = .searching ∧ (⟨1, 9⟩ : SyncEvent).offset + 1 = base.absPos + 10) :=
  ⟨base_inv, ready_lastByte 1 (.inr rfl), ready_lastByte 0 (.inl rfl), by unfold IsPicked; decide, by unfold IsPicked; decide,
    by decide⟩

/-- `P = 1`: the payload completes at once. -/
theorem witness_EventAtLastByte_single :
    oneByte.Inv ∧ oneByte.cfgP = 1 ∧ StepReady oneByte (window 0 10 [⟨1, 9⟩] 1) ∧ IsPicked oneByte (window 0 10 [⟨1, 9⟩] 1) ⟨1, 9⟩ :=
  ⟨oneByte_inv, by decide, by constructor <;> decide, by unfold IsPicked; decide⟩

/-- The state the first window leaves when the output has no room. -/
def atMatchByte : State := (nextOf (exec (.syncStep (window 0 10 [⟨1, 9⟩] 0)) base)).getD base

/-- The second window of the clause without capacity: the match byte comes back at `in[0]`. -/
theorem witness_EventAtLastByte_next :
    exec (.syncStep (window 0 10 [⟨1, 9⟩] 0)) base = .next atMatchByte ∧ base.mem.wf ∧
    StepReady { atMatchByte with mem := base.mem } (window 9 12 [⟨1, 9⟩] 4) :=
  ⟨by rfl, base_inv.memory, by constructor <;> decide⟩

theorem witness_EmptyWindowChangesNothing :
    copying.Inv ∧ StepReady copying (window 6 6 [⟨1, 6⟩] 16) ∧ (window 6 6 [⟨1, 6⟩] 16).window.len = 0 ∧
    base.Inv ∧ StepReady base (window 0 0 [⟨1, 0⟩] 16) :=
  ⟨copying_inv, by constructor <;> decide, by decide, base_inv, by constructor <;> decide⟩

theorem witness_NoProgressWithoutCapacity :
    copying.Inv ∧ copying.xs = .copying ∧ copying.mem.wf ∧
    (deliveries [⟨copying.mem, window 6 10 [] 0⟩, ⟨copying.mem, window 6 8 [⟨1, 7⟩] 0⟩] copying).isSome = true :=
  ⟨copying_inv, by decide, copying_inv.memory, by decide⟩

/-- As many deliveries as bytes remain, each of one byte and room for one. -/
theorem witness_PayloadCompletesUnderProgress :
    copying.Inv ∧ copying.xs = .copying ∧ copying.mem.wf ∧ copying.remaining ≤ 2 ∧
    (deliveries [⟨copying.mem, window 6 7 [] 1⟩, ⟨copying.mem, window 7 8 [⟨1, 7⟩] 1⟩] copying).isSome = true :=
  ⟨copying_inv, by decide, copying_inv.memory, by decide, by decide⟩

/-- Two sessions exactly `P = 4` bytes apart (R138), with an event between them ignored. -/
theorem witness_SessionsNeverOverlap :
    base.Inv ∧ base.mode = .configured ∧ base.mem.wf ∧
    (deliveries [⟨base.mem, window 0 12 [⟨1, 2⟩, ⟨1, 4⟩, ⟨1, 6⟩] 16⟩, ⟨base.mem, window 6 12 [⟨1, 6⟩] 16⟩] base).map
      detections = some [2, 6] := ⟨base_inv, by decide, base_inv.memory, by decide⟩

/-- The stream `bytes(0..6)` with events at 2 and 4, cut after 3 bytes with too little room. -/
def cutRun : List Delivery :=
  [⟨base.mem, window 0 3 [⟨1, 2⟩, ⟨1, 4⟩] 0⟩, ⟨base.mem, window 2 6 [⟨1, 2⟩, ⟨1, 4⟩] 16⟩]

def cutFirst : State := (deliver ⟨base.mem, window 0 3 [⟨1, 2⟩, ⟨1, 4⟩] 0⟩ base).getD base

def cutSecond : State := (deliver ⟨base.mem, window 2 6 [⟨1, 2⟩, ⟨1, 4⟩] 16⟩ cutFirst).getD base

theorem witness_WindowingIndependence :
    base.Inv ∧ base.mode = .configured ∧ base.params.startAfterMatch = false ∧ base.xs = .searching ∧ base.absPos = 0 ∧
    (∀ d ∈ cutRun, d.mem.wf) ∧ deliveries cutRun base = some [cutFirst, cutSecond] ∧
    FaithfulRun [0, 1, 2, 3, 4, 5] [⟨1, 2⟩, ⟨1, 4⟩] base cutRun [cutFirst, cutSecond] ∧
    (lastState base [cutFirst, cutSecond]).absPos = 6 := by
  refine ⟨base_inv, by decide, by decide, by decide, by decide, ?_, by decide, ?_, by decide⟩
  · simpa [cutRun] using base_inv.memory
  · exact ⟨⟨by decide, by decide, fun _ _ _ => Iff.rfl⟩, ⟨by decide, by decide, fun _ _ _ => Iff.rfl⟩, trivial⟩

theorem witness_SyncRstStartsSession :
    copying.mode = .configured ∧ State.reset.mode = .unconfigured ∧ fatalState.mode = .fatal ∧
    (opField 0x6001 = 0x6 ∧ dataField 0x6001 ≠ 0) := by decide

theorem witness_StatusOutputNumbers : 0xA ≤ (0xA : BitVec 4).toNat ∧ 0xA ≤ (0xF : BitVec 4).toNat := by decide

theorem witness_ByteGroupsRejoin : 1 ∈ [1, 2, 4, 8] ∧ 8 ∈ [1, 2, 4, 8] := by decide

theorem witness_BootConfigures :
    (withActs [.reset, .command (encode (.cfg goodCfg))] fatalState).pending = [.reset, .command (encode (.cfg goodCfg))] ∧
    goodCfg.wf fatalState.params = true ∧ goodCfg.m.toNat = 2 ^ 2 ∧ 1 ≤ goodCfg.plen := by decide

end Sys2Proof.Tests
end

section
/-! PROOF. The units are isolated (R8).

An update of the state is outside a unit when it changes nothing the unit reads and commutes with everything it writes.
Every operation of the unit then commutes with the update. -/

namespace Sys2Proof.Machine

/-! ## Updates outside the shared operations -/

/-- An update that changes no register a shared check reads (`mode`, `cfg_M`, `cfg_K`) and commutes with answering. -/
structure OutsideShared (f : State → State) : Prop where
  mode : ∀ s, (f s).mode = s.mode
  cfgM : ∀ s, (f s).cfgM = s.cfgM
  cfgK : ∀ s, (f s).cfgK = s.cfgK
  answer : ∀ s r, (f s).answer r = f (s.answer r)

section
variable {f : State → State}

@[simp] theorem mapNext_next (t : State) : mapNext f (.next t) = .next (f t) := rfl

/-- A response after an update: the shape in which every operation ends. -/
theorem OutsideShared.next_answer (h : OutsideShared f) {t t' : State} (ht : t' = f t) (r : Response) :
    .next (t'.answer r) = mapNext f (.next (t.answer r)) := by
  rw [ht, h.answer, mapNext_next]

theorem OutsideShared.raiseErr (h : OutsideShared f) (e : ErrCode) (s : State) :
    raiseErr e (f s) = mapNext f (raiseErr e s) :=
  h.next_answer rfl _

theorem OutsideShared.whenConfigured (h : OutsideShared f) (s : State) {body body' : Host.Outcome State Fault Refusal}
    (hbody : body' = mapNext f body) : whenConfigured (f s) body' = mapNext f (whenConfigured s body) := by
  have hmode := h.mode s
  cases hm : s.mode with
  | configured => rw [whenConfigured_configured hm, whenConfigured_configured (hmode.trans hm), hbody]
  | unconfigured =>
    rw [whenConfigured_unconfigured hm, whenConfigured_unconfigured (hmode.trans hm)]
    exact h.next_answer rfl _
  | fatal =>
    rw [whenConfigured_fatal hm, whenConfigured_fatal (hmode.trans hm)]
    exact h.next_answer rfl _

theorem OutsideShared.whenWidthFits (h : OutsideShared f) (s : State) (i : Instr)
    {body body' : Host.Outcome State Fault Refusal} (hbody : body' = mapNext f body) :
    whenWidthFits (f s) i body' = mapNext f (whenWidthFits s i body) := by
  unfold Machine.whenWidthFits
  rw [h.cfgK]
  cases decodeWidth s.cfgK.toNat i with
  | error _ => exact h.raiseErr _ s
  | ok _ => exact hbody

end

/-! ## Updates outside one unit -/

/-- An update that does not change `enc_prev` and commutes with writing it. -/
structure OutsideEncoder (f : State → State) : Prop extends OutsideShared f where
  encPrev : ∀ s, (f s).encPrev = s.encPrev
  withEnc : ∀ s v, (f s).withEnc v = f (s.withEnc v)

/-- An update that does not change `dec_prev` and commutes with writing it. -/
structure OutsideDecoder (f : State → State) : Prop extends OutsideShared f where
  decPrev : ∀ s, (f s).decPrev = s.decPrev
  withDec : ∀ s v, (f s).withDec v = f (s.withDec v)

/-- An update that changes nothing the extractor reads and commutes with the three updates
the extractor makes (R135, R144, R147). -/
structure OutsideExtractor (f : State → State) : Prop extends OutsideShared f where
  xs : ∀ s, (f s).xs = s.xs
  remaining : ∀ s, (f s).remaining = s.remaining
  absPos : ∀ s, (f s).absPos = s.absPos
  cfgP : ∀ s, (f s).cfgP = s.cfgP
  cfgKind : ∀ s, (f s).cfgKind = s.cfgKind
  mem : ∀ s, (f s).mem = s.mem
  params : ∀ s, (f s).params = s.params
  skipWindow : ∀ r s, skipWindow r (f s) = f (skipWindow r s)
  copyPhase : ∀ r cursor left detected s,
    copyPhase r cursor left detected (f s) = f (copyPhase r cursor left detected s)
  newSession : ∀ s, { f s with xs := .searching, remaining := 0, absPos := 0, partialPayload := [] } =
    f { s with xs := .searching, remaining := 0, absPos := 0, partialPayload := [] }

section
variable {f : State → State}

theorem OutsideEncoder.exec_enc (h : OutsideEncoder f) (data : Byte) (s : State) :
    exec (.enc data) (f s) = mapNext f (exec (.enc data) s) := by
  refine h.whenConfigured s (h.whenWidthFits s _ ?_)
  have hcur : addMod (f s).encPrev data (f s).cfgM = addMod s.encPrev data s.cfgM := by rw [h.encPrev, h.cfgM]
  rw [hcur]
  exact h.next_answer (h.withEnc s _) _

theorem OutsideEncoder.exec_encRst (h : OutsideEncoder f) (s : State) :
    exec .encRst (f s) = mapNext f (exec .encRst s) :=
  h.whenConfigured s (h.next_answer (h.withEnc s 0) _)

theorem OutsideDecoder.exec_dec (h : OutsideDecoder f) (data : Byte) (s : State) :
    exec (.dec data) (f s) = mapNext f (exec (.dec data) s) := by
  refine h.whenConfigured s (h.whenWidthFits s _ ?_)
  have hdata : subMod data (f s).decPrev (f s).cfgM = subMod data s.decPrev s.cfgM := by rw [h.decPrev, h.cfgM]
  rw [hdata]
  exact h.next_answer (h.withDec s data) _

theorem OutsideDecoder.exec_decRst (h : OutsideDecoder f) (s : State) :
    exec .decRst (f s) = mapNext f (exec .decRst s) :=
  h.whenConfigured s (h.next_answer (h.withDec s 0) _)

theorem OutsideExtractor.stepProblem (h : OutsideExtractor f) (s : State) (r : StepRecord) :
    stepProblem (f s) r = stepProblem s r := by
  simp only [Machine.stepProblem, h.params, h.absPos]

theorem OutsideExtractor.pickedOffset (h : OutsideExtractor f) (s : State) (r : StepRecord) :
    pickedOffset (f s) r = pickedOffset s r := by
  simp only [Machine.pickedOffset, h.cfgKind, h.absPos]

theorem OutsideExtractor.extract (h : OutsideExtractor f) (r : StepRecord) (s : State) :
    extract r (f s) = f (extract r s) := by
  unfold Machine.extract
  rw [h.xs]
  cases s.xs with
  | copying => rw [h.remaining, h.copyPhase]
  | searching =>
    rw [h.pickedOffset]
    cases Machine.pickedOffset s r with
    | none => exact h.skipWindow r s
    | some t => simp only [h.absPos, h.params, h.cfgP, h.copyPhase]

theorem OutsideExtractor.exec_syncStep (h : OutsideExtractor f) (r : StepRecord) (s : State) :
    exec (.syncStep r) (f s) = mapNext f (exec (.syncStep r) s) := by
  refine h.whenConfigured s ?_
  rw [h.stepProblem, h.mem, h.extract]
  cases Machine.stepProblem s r with
  | some e => exact h.raiseErr e s
  | none => cases bufferProblem s.mem r <;> rfl

theorem OutsideExtractor.exec_syncRst (h : OutsideExtractor f) (s : State) :
    exec .syncRst (f s) = mapNext f (exec .syncRst s) :=
  h.whenConfigured s (h.next_answer (h.newSession s) _)

end

/-! ## The three units lie outside each other -/

theorem outsideShared_withEnc (p : Byte) : OutsideShared (State.withEnc p) := by
  constructor <;> intros <;> rfl

theorem outsideShared_withDec (p : Byte) : OutsideShared (State.withDec p) := by
  constructor <;> intros <;> rfl

theorem outsideShared_withSx (x : ExtractState) (left pos : Nat) (part : List Byte) (done : List (List Byte)) :
    OutsideShared (State.withSx x left pos part done) := by
  constructor <;> intros <;> rfl

theorem outsideDecoder_withEnc (p : Byte) : OutsideDecoder (State.withEnc p) :=
  ⟨outsideShared_withEnc p, fun _ => rfl, fun _ _ => rfl⟩

theorem outsideDecoder_withSx (x : ExtractState) (left pos : Nat) (part : List Byte) (done : List (List Byte)) :
    OutsideDecoder (State.withSx x left pos part done) :=
  ⟨outsideShared_withSx x left pos part done, fun _ => rfl, fun _ _ => rfl⟩

theorem outsideEncoder_withDec (p : Byte) : OutsideEncoder (State.withDec p) :=
  ⟨outsideShared_withDec p, fun _ => rfl, fun _ _ => rfl⟩

theorem outsideEncoder_withSx (x : ExtractState) (left pos : Nat) (part : List Byte) (done : List (List Byte)) :
    OutsideEncoder (State.withSx x left pos part done) :=
  ⟨outsideShared_withSx x left pos part done, fun _ => rfl, fun _ _ => rfl⟩

theorem outsideExtractor_withEnc (p : Byte) : OutsideExtractor (State.withEnc p) := by
  constructor
  case toOutsideShared => exact outsideShared_withEnc p
  all_goals intros; rfl

theorem outsideExtractor_withDec (p : Byte) : OutsideExtractor (State.withDec p) := by
  constructor
  case toOutsideShared => exact outsideShared_withDec p
  all_goals intros; rfl

/-- Settles O20: each unit's operations commute with every update outside that unit. -/
theorem unitsAreIsolated : Obligations.UnitsAreIsolated := by
  intro s i p x left pos part done
  have encDec := outsideEncoder_withDec p
  have encSx := outsideEncoder_withSx x left pos part done
  have decEnc := outsideDecoder_withEnc p
  have decSx := outsideDecoder_withSx x left pos part done
  have sxEnc := outsideExtractor_withEnc p
  have sxDec := outsideExtractor_withDec p
  refine ⟨?encoder, ?decoder, ?extractor⟩
  case encoder =>
    rintro (⟨data, rfl⟩ | rfl)
    · exact ⟨encDec.exec_enc data s, encSx.exec_enc data s⟩
    · exact ⟨encDec.exec_encRst s, encSx.exec_encRst s⟩
  case decoder =>
    rintro (⟨data, rfl⟩ | rfl)
    · exact ⟨decEnc.exec_dec data s, decSx.exec_dec data s⟩
    · exact ⟨decEnc.exec_decRst s, decSx.exec_decRst s⟩
  case extractor =>
    rintro (⟨r, rfl⟩ | rfl)
    · exact ⟨sxEnc.exec_syncStep r s, sxDec.exec_syncStep r s⟩
    · exact ⟨sxEnc.exec_syncRst s, sxDec.exec_syncRst s⟩

end Sys2Proof.Machine
end

section
/-! PROOF. The state (R20 to R36): its invariants, what changes its mode and its registers, and the status view. -/

namespace Sys2Proof.Machine

/-! ## The invariants (R32)

One lemma per update a step makes: it keeps the invariants under the condition that holds where the step makes it.
`last_err`, the response port and the pending acts stand in no invariant. -/

/-- The reset values satisfy the invariants, with any canonical memory and any build parameters. -/
theorem inv_of_atReset {s : State} (h : s.AtReset) (hmem : s.mem.wf) : s.Inv := by
  obtain ⟨hmode, hM, hK, hP, hkind, hpat, henc, hdec, hxs, hrem, hpos, -, hfatal, hpart, hpay⟩ := h
  constructor <;> simp [*]

theorem inv_hardwareReset {s : State} (h : s.Inv) : (hardwareReset s).Inv :=
  inv_of_atReset (by simp [State.AtReset]) h.memory

theorem inv_withMem {s : State} (h : s.Inv) {m : Memory} (hmem : m.wf) : { s with mem := m }.Inv :=
  { h with memory := hmem }

theorem inv_hostWrite {s : State} (h : s.Inv) (base : Nat) (bytes : List Byte) : (hostWrite base bytes s).Inv :=
  inv_withMem h (Memory.wf_writeBytes h.memory base bytes)

theorem inv_answer {s : State} (h : s.Inv) (r : Response) : (s.answer r).Inv :=
  { h with }

theorem inv_withPending {s : State} (h : s.Inv) (acts : List HostInput) : { s with pending := acts }.Inv :=
  { h with }

/-- In Configured mode an encoder register below `M` keeps the invariants. -/
theorem inv_withEnc {s : State} (h : s.Inv) (hm : s.mode = .configured) {v : Byte} (hv : v.toNat < s.cfgM.toNat) :
    (s.withEnc v).Inv :=
  { h with
    symbols := fun _ => ⟨hv, (h.symbols hm).2⟩
    atRest := fun hne => absurd hm hne }

/-- In Configured mode a decoder register below `M` keeps the invariants. -/
theorem inv_withDec {s : State} (h : s.Inv) (hm : s.mode = .configured) {v : Byte} (hv : v.toNat < s.cfgM.toNat) :
    (s.withDec v).Inv :=
  { h with
    symbols := fun _ => ⟨(h.symbols hm).1, hv⟩
    atRest := fun hne => absurd hm hne }

/-- In Configured mode the extractor's unit keeps the invariants when it is Searching with nothing gathered, or Copying with
what is gathered and what is left making up one payload (R32, R148). -/
theorem inv_withSx {s : State} (h : s.Inv) (hm : s.mode = .configured) {x : ExtractState} {left pos : Nat}
    {part : List Byte} {done : List (List Byte)} (hpos : pos < 2 ^ s.params.offsetWidth)
    (hsearching : x = .searching → left = 0 ∧ part = [])
    (hcopying : x = .copying → 1 ≤ left ∧ left ≤ s.cfgP ∧ part.length = s.cfgP - left)
    (hdone : ∀ p ∈ done, p.length = s.cfgP) : (s.withSx x left pos part done).Inv :=
  { h with
    searching := hsearching
    copying := hcopying
    atRest := fun hne => absurd hm hne
    blank := fun hne => absurd hm hne
    payloads := hdone
    offset := hpos }

/-- A failed `CFG` (R173): the registers are at rest in Unconfigured mode and stay so in Fatal mode. -/
theorem inv_failedConfig {s : State} (h : s.Inv) (hm : s.mode = .unconfigured) {e : ErrCode}
    (he : e = .cfgBadM ∨ e = .cfgBadPlen) : { s with mode := .fatal, fatalCode := e }.Inv :=
  { h with
    alphabet := nofun
    packet := nofun
    symbols := nofun
    atRest := fun _ => h.atRest (by simp [hm])
    blank := fun _ => h.blank (by simp [hm])
    fatal := by rcases he with rfl | rfl <;> simp
    fatalCode := .inr he }

/-- A legal alphabet size and its `cfg_K` (R71, R175). -/
theorem alphabetBits_legal {r : CfgRecord} (h : cfgProblem r = none) :
    1 ≤ (alphabetBits r.m).toNat ∧ (alphabetBits r.m).toNat ≤ 8 ∧ r.m.toNat = 2 ^ (alphabetBits r.m).toNat := by
  obtain ⟨⟨k, hk1, hk8, hm⟩, -⟩ := (cfgProblem_none_iff r).mp h
  have hbits : (alphabetBits r.m).toNat = k := by
    rw [alphabetBits_of_pow hm, BitVec.toNat_ofNat, Nat.mod_eq_of_lt (by omega)]
  rw [hbits]
  exact ⟨hk1, hk8, hm⟩

/-- A legal `CFG` (R172), whose operands fit their ports, gives a configuration that satisfies the invariants. -/
theorem inv_loadConfig {s : State} (h : s.Inv) (hm : s.mode = .unconfigured) {r : CfgRecord}
    (hr : cfgProblem r = none) (hwf : r.wf s.params = true) : (loadConfig r s).Inv := by
  obtain ⟨hK1, hK8, hM⟩ := alphabetBits_legal hr
  obtain ⟨-, hplen⟩ := (cfgProblem_none_iff r).mp hr
  have hMpos : 0 < r.m.toNat := by rw [hM]; exact Nat.two_pow_pos _
  have hcode : s.fatalCode = .ok := by
    by_contra hne
    simpa [hm] using h.fatal.mpr hne
  obtain ⟨-, -, -, -, -, hpay⟩ := h.blank (by simp [hm])
  exact {
    alphabet := fun _ => ⟨hK1, hK8, hM⟩
    packet := fun _ => hplen
    symbols := fun _ => ⟨hMpos, hMpos⟩
    searching := fun _ => ⟨rfl, rfl⟩
    copying := nofun
    atRest := fun hne => absurd rfl hne
    blank := fun hne => absurd rfl hne
    fatal := by simp [hcode]
    fatalCode := .inl hcode
    payloads := by simp [hpay]
    widths := by simpa [CfgRecord.wf, and_assoc] using hwf
    offset := Nat.two_pow_pos _
    memory := h.memory }

/-- A position inside the window of a ready `SYNC.STEP` fits `abs_pos` (R54, R132). -/
theorem absPos_fits {s : State} {r : StepRecord} (hr : StepReady s r) {n : Nat} (hn : n ≤ r.window.len) :
    s.absPos + n < 2 ^ s.params.offsetWidth := by
  have hbound := hr.offset
  have hpos := Nat.two_pow_pos s.params.offsetWidth
  omega

/-- A window skipped while Searching (R135) keeps the invariants. -/
theorem inv_skipWindow {s : State} (h : s.Inv) {r : StepRecord} (hr : StepReady s r) : (skipWindow r s).Inv :=
  inv_answer (inv_withSx h hr.configured (absPos_fits hr le_rfl) h.searching h.copying h.payloads) _

/-- Host memory after a copy (R139). -/
def copiedMem (r : StepRecord) (cursor left : Nat) (s : State) : Memory :=
  s.mem.copy (copyCount r cursor left) (r.window.base + cursor) r.out.base

/-- What the session has gathered after a copy: `partial` and the bytes that moved (R148). -/
def gatheredBytes (r : StepRecord) (cursor left : Nat) (s : State) : List Byte :=
  s.partialPayload ++ (copiedMem r cursor left s).bytes r.out.base (copyCount r cursor left)

/-- A copy that leaves nothing to go delivers the payload (R141, R148). -/
theorem copyPhase_done {r : StepRecord} {cursor left : Nat} (detected : Option Nat) (s : State)
    (h : left - copyCount r cursor left = 0) :
    copyPhase r cursor left detected s = State.answer
      { s.withSx .searching 0 (s.absPos + (cursor + copyCount r cursor left)) []
          (s.payloads ++ [gatheredBytes r cursor left s]) with mem := copiedMem r cursor left s }
      { err := .ok, consumed := cursor + copyCount r cursor left, produced := copyCount r cursor left,
        payloadDone := true, detectValid := detected.isSome, detectOffset := detected.getD 0 } := by
  simp [copyPhase, h, gatheredBytes, copiedMem, State.withSx]

/-- A copy that leaves bytes to go stays in Copying and keeps what it has gathered (R142, R148). -/
theorem copyPhase_more {r : StepRecord} {cursor left : Nat} (detected : Option Nat) (s : State)
    (h : left - copyCount r cursor left ≠ 0) :
    copyPhase r cursor left detected s = State.answer
      { s.withSx .copying (left - copyCount r cursor left) (s.absPos + (cursor + copyCount r cursor left))
          (gatheredBytes r cursor left s) s.payloads with mem := copiedMem r cursor left s }
      { err := .ok, consumed := cursor + copyCount r cursor left, produced := copyCount r cursor left,
        payloadDone := false, detectValid := detected.isSome, detectOffset := detected.getD 0 } := by
  simp [copyPhase, h, gatheredBytes, copiedMem, State.withSx]

/-- A copy keeps the invariants when what is gathered before it and what is left make up one payload. -/
theorem inv_copyPhase {s : State} (h : s.Inv) {r : StepRecord} (hr : StepReady s r) {cursor left : Nat}
    (detected : Option Nat) (hc : cursor ≤ r.window.len) (hleft : left ≤ s.cfgP)
    (hpart : s.partialPayload.length = s.cfgP - left) : (copyPhase r cursor left detected s).Inv := by
  obtain ⟨hcount, -, -, hmoved, -⟩ := copy_spec hr cursor left hc
  have hpos := absPos_fits hr (n := cursor + copyCount r cursor left) (by omega)
  have hmem : (copiedMem r cursor left s).wf := Memory.wf_copy h.memory _ _ _
  have hlen : (gatheredBytes r cursor left s).length = s.cfgP - (left - copyCount r cursor left) := by
    rw [gatheredBytes, List.length_append, hpart, copiedMem, hmoved]
    omega
  by_cases hdone : left - copyCount r cursor left = 0
  · rw [copyPhase_done detected s hdone]
    have hdelivered : ∀ p ∈ s.payloads ++ [gatheredBytes r cursor left s], p.length = s.cfgP := by
      simpa [or_imp, forall_and, hlen, hdone] using h.payloads
    exact inv_answer (inv_withMem
      (inv_withSx (x := .searching) h hr.configured hpos (fun _ => ⟨rfl, rfl⟩) nofun hdelivered) hmem) _
  · rw [copyPhase_more detected s hdone]
    exact inv_answer (inv_withMem (inv_withSx (x := .copying) h hr.configured hpos nofun
      (fun _ => ⟨Nat.one_le_iff_ne_zero.mpr hdone, by omega, hlen⟩) h.payloads) hmem) _

/-- One invocation of a ready `SYNC.STEP` (R144) keeps the invariants. -/
theorem inv_extract {s : State} (h : s.Inv) {r : StepRecord} (hr : StepReady s r) : (extract r s).Inv := by
  rcases extract_cases r s with ⟨hx, he⟩ | ⟨-, -, he⟩ | ⟨t, hx, ht, he⟩ <;> rw [he]
  · obtain ⟨-, hle, hlen⟩ := h.copying hx
    exact inv_copyPhase h hr none (Nat.zero_le _) hle hlen
  · exact inv_skipWindow h hr
  · obtain ⟨e, ⟨-, ⟨-, hlo, hhi⟩, -⟩, rfl⟩ := (pickedOffset_some s r t).mp ht
    have hcursor : e.offset - s.absPos + matchLead s.params ≤ r.window.len := by
      have hlead : matchLead s.params ≤ 1 := by unfold matchLead; split <;> omega
      omega
    exact inv_copyPhase h hr (some e.offset) hcursor le_rfl (by simp [(h.searching hx).2])

/-- Every instruction whose operands fit their ports keeps the invariants (R32). -/
theorem inv_exec {s t : State} (h : s.Inv) {i : Instr} (hwf : i.wf s.params = true) (hstep : exec i s = .next t) :
    t.Inv := by
  rcases exec_next i hstep with ⟨e, rfl, -⟩ | ⟨e, r, rfl, hm, rfl, he⟩ | ⟨r, rfl, hm, rfl, hr⟩ | ⟨hm, -, hop⟩
  · exact inv_answer h _
  · exact inv_answer (inv_failedConfig h hm he) _
  · exact inv_answer (inv_loadConfig h hm hr hwf) _
  · obtain ⟨-, hK8, hM⟩ := h.alphabet hm
    have hMpos : 0 < s.cfgM.toNat := by rw [hM]; exact Nat.two_pow_pos _
    have hM256 : s.cfgM.toNat ≤ 256 := by rw [hM]; exact Nat.pow_le_pow_right (by omega) hK8
    rcases hop with ⟨d, rfl, -, rfl⟩ | ⟨d, rfl, hd, rfl⟩ | ⟨rfl, rfl⟩ | ⟨rfl, rfl⟩ | ⟨rfl, rfl⟩ | ⟨r, rfl, hr, rfl⟩
    · refine inv_answer (inv_withEnc h hm ?_) _
      rw [addMod_toNat _ _ hMpos hM256]
      exact Nat.mod_lt _ hMpos
    · exact inv_answer (inv_withDec h hm (hM ▸ hd)) _
    · exact inv_answer (inv_withEnc h hm (v := 0) hMpos) _
    · exact inv_answer (inv_withDec h hm (v := 0) hMpos) _
    · exact inv_answer (inv_withSx (x := .searching) h hm (Nat.two_pow_pos _) (fun _ => ⟨rfl, rfl⟩) nofun h.payloads) _
    · exact inv_extract h hr

/-- Every operation that answers keeps the invariants (R32). -/
theorem inv_operate {s t : State} (h : s.Inv) {c : Command} (hstep : operate c s = .next t) : t.Inv := by
  rcases operate_next hstep with ⟨-, rfl⟩ | ⟨i, -, hwf, hexec⟩
  · exact inv_answer h _
  · exact inv_exec h hwf hexec

/-- Settles O4: the act a step takes, an operation, a hardware reset or a host write, keeps the invariants. -/
theorem stepKeepsInvariants : Obligations.StepKeepsInvariants := by
  intro s t h hstep
  rcases step_next hstep with ⟨-, rfl⟩ | ⟨act, rest, -, hact⟩
  · exact h
  · have hrest := inv_withPending h rest
    rcases hact with ⟨c, -, hop⟩ | ⟨-, rfl⟩ | ⟨base, bytes, -, rfl⟩
    · exact inv_operate hrest hop
    · exact inv_hardwareReset hrest
    · exact inv_hostWrite hrest base bytes

/-- Settles O3: the state after reset is one whose registers hold their reset values. -/
theorem resetSatisfiesInvariants : Obligations.ResetSatisfiesInvariants :=
  inv_of_atReset (by simp [State.AtReset, State.reset]) .nil

/-! ## What changes the mode (R21, R194) and the other registers (R20) -/

/-- A `SYNC.STEP` writes no register outside the extractor's unit, no pending act and no build parameter (R8, R20). -/
theorem extract_frame (r : StepRecord) (s : State) :
    (extract r s).mode = s.mode ∧ (extract r s).cfgM = s.cfgM ∧ (extract r s).cfgK = s.cfgK ∧
      (extract r s).cfgP = s.cfgP ∧ (extract r s).cfgKind = s.cfgKind ∧ (extract r s).cfgPattern = s.cfgPattern ∧
      (extract r s).encPrev = s.encPrev ∧ (extract r s).decPrev = s.decPrev ∧
      (extract r s).fatalCode = s.fatalCode ∧ (extract r s).pending = s.pending ∧
      (extract r s).params = s.params := by
  rcases extract_cases r s with ⟨-, h⟩ | ⟨-, -, h⟩ | ⟨t, -, -, h⟩ <;> rw [h] <;>
    exact ⟨rfl, rfl, rfl, rfl, rfl, rfl, rfl, rfl, rfl, rfl, rfl⟩

/-- An instruction changes the mode only as a `CFG` in Unconfigured mode (R21): to Configured when it succeeds,
to Fatal when it fails. -/
theorem exec_changes_mode {i : Instr} {s t : State} (h : exec i s = .next t) (hne : t.mode ≠ s.mode) :
    s.mode = .unconfigured ∧ (t.mode = .configured ↔ t.lastErr = .ok) ∧ (t.mode = .fatal ↔ t.lastErr ≠ .ok) ∧
      ∃ r, i = .cfg r := by
  rcases exec_next i h with ⟨e, rfl, -⟩ | ⟨e, r, rfl, hm, rfl, he⟩ | ⟨r, rfl, hm, rfl, -⟩ | ⟨-, -, hop⟩
  · exact absurd rfl hne
  · rcases he with rfl | rfl <;> simp [hm]
  · simp [hm]
  · refine absurd ?_ hne
    rcases hop with ⟨d, -, -, rfl⟩ | ⟨d, -, -, rfl⟩ | ⟨-, rfl⟩ | ⟨-, rfl⟩ | ⟨-, rfl⟩ | ⟨r, -, -, rfl⟩ <;>
      simp [extract_frame]

/-- An instruction that its mode performs answers none of the codes of the mode checks (R194). -/
theorem exec_performed {i : Instr} {s t : State} (h : exec i s = .next t)
    (hmode : s.mode = .unconfigured ∧ (∃ r, i = .cfg r) ∨ s.mode = .configured ∧ ∀ r, i ≠ .cfg r) :
    t.lastErr ≠ .fatal ∧ t.lastErr ≠ .notConfigured ∧ t.lastErr ≠ .cfgLocked := by
  rcases hmode with ⟨hm, r, rfl⟩ | ⟨hm, hcfg⟩
  · rcases execCfg_cases r s with ⟨hm', -⟩ | ⟨hm', -⟩ | ⟨e, -, hp, hx⟩ | ⟨-, -, hx⟩
    · simp [hm] at hm'
    · simp [hm] at hm'
    · obtain rfl := Host.Outcome.next.inj (hx.symm.trans h)
      rcases cfgProblem_some hp with rfl | rfl <;> simp
    · obtain rfl := Host.Outcome.next.inj (hx.symm.trans h)
      simp
  · rcases exec_next i h with
      ⟨e, rfl, -, -, -, hfatal, hconf, hlocked⟩ | ⟨e, r, -, -, hi, -⟩ | ⟨r, -, -, hi, -⟩ | ⟨-, hok, -⟩
    · refine ⟨fun he => ?_, fun he => ?_, fun he => ?_⟩
      · simpa [hm] using hfatal he
      · simpa [hm] using hconf he
      · obtain ⟨-, r, hi⟩ := hlocked he
        exact hcfg r hi
    · exact absurd hi (hcfg r)
    · exact absurd hi (hcfg r)
    · simp [hok]

/-- Settles O13: the mode checks come first, and only `CFG` and the hardware reset write the mode. -/
theorem modeGatesOperations : Obligations.ModeGatesOperations := by
  refine ⟨fun i s => ⟨(exec_gated i s).1, (exec_gated i s).2, ?locked, fun hmode t h => exec_performed h hmode⟩, ?changes⟩
  case locked =>
    rintro hm ⟨r, rfl⟩
    simp [exec, execCfg, hm, raiseErr]
  case changes =>
    intro s t h hne
    rcases step_next h with ⟨-, rfl⟩ | ⟨act, rest, hp, ⟨c, rfl, hop⟩ | ⟨rfl, rfl⟩ | ⟨base, bytes, rfl, rfl⟩⟩
    · exact absurd rfl hne
    · rcases operate_next hop with ⟨-, rfl⟩ | ⟨i, hi, -, hx⟩
      · exact absurd rfl hne
      · obtain ⟨hm, hok, hbad, r, rfl⟩ := exec_changes_mode hx hne
        exact .inr ⟨hm, hok, hbad, c, rest, r, hp, hi⟩
    · exact .inl ⟨rfl, rest, hp⟩
    · exact absurd rfl hne

/-- Settles O14: in each way an operation answers, the registers written are those of the instruction. -/
theorem registersChangeOnlyByTheirWriters : Obligations.RegistersChangeOnlyByTheirWriters := by
  intro c s t h
  rcases operate_next h with ⟨-, rfl⟩ | ⟨i, hi, -, hx⟩
  · simp
  rcases exec_next i hx with ⟨e, rfl, -⟩ | ⟨e, r, rfl, hm, rfl, he⟩ | ⟨r, rfl, hm, rfl, -⟩ | ⟨hm, hok, hop⟩
  · simp
  · have hbad : e ≠ .ok := by rcases he with rfl | rfl <;> simp
    simp [hi, hm, hbad]
  · simp [hi, hm]
  · rcases hop with ⟨d, rfl, -, rfl⟩ | ⟨d, rfl, -, rfl⟩ | ⟨rfl, rfl⟩ | ⟨rfl, rfl⟩ | ⟨rfl, rfl⟩ | ⟨r, rfl, -, rfl⟩ <;>
      simp [hi, hok, extract_frame]

/-! ## The status view (R34, R35) -/

/-- A field placed at bit `p` of a 16-bit word is read back from bit `p`. -/
theorem extract_placed_same {w : Nat} (v : BitVec w) {p : Nat} (h : p + w ≤ 16) :
    (v.setWidth 16 <<< p).extractLsb' p w = v := by
  ext i hi
  simp [BitVec.getLsbD_eq_getElem, hi, show p + i < 16 by omega]

/-- A field placed at bit `p` leaves every bit outside `[p, p + w)` at 0. -/
theorem extract_placed_disjoint {w : Nat} (v : BitVec w) {p q n : Nat} (h : q + n ≤ p ∨ p + w ≤ q) :
    (v.setWidth 16 <<< p).extractLsb' q n = 0#n := by
  ext i hi
  rcases h with h | h
  · simp [show q + i < p by omega]
  · simp [v.getLsbD_of_ge (q + i - p) (by omega)]

/-- `STATUS` is its four codes, each placed at its own bit (R35). -/
theorem statusWord_placed (s : State) : statusWord s =
    s.mode.code.setWidth 16 <<< 0 ||| s.xs.code.setWidth 16 <<< 2 ||| s.fatalCode.code.setWidth 16 <<< 4 |||
      s.lastErr.code.setWidth 16 <<< 8 := by
  simp [statusWord]

/-- Settles O47: a field of `STATUS` reads the code placed there, and the other codes lie outside it. -/
theorem statusWordFields : Obligations.StatusWordFields := by
  refine ⟨rfl, fun s => ?_⟩
  simp (disch := decide) only [statusWord_placed, BitVec.extractLsb'_or, extract_placed_same, extract_placed_disjoint,
    BitVec.or_zero, BitVec.zero_or]
  refine ⟨?mode, ?xs, rfl, trivial, trivial, rfl⟩
  case mode => cases s.mode <;> rfl
  case xs => cases s.xs <;> rfl

/-- Settles O48: the outputs the table lists are read off it, every other number reads 0. -/
theorem statusOutputNumbers : Obligations.StatusOutputNumbers := by
  intro s
  refine ⟨rfl, rfl, rfl, rfl, rfl, rfl, rfl, rfl, rfl, rfl, fun number hn => ?_⟩
  unfold statusOutput
  split
  case h_11 => rfl
  all_goals omega

end Sys2Proof.Machine
end

section
/-! PROOF. The host's acts and its memory (R54, R58 to R60, R220, R228): what one step does with each act, the buffers a
`SYNC.STEP` refuses, and the offset it counts. -/

namespace Sys2Proof.Machine

/-! ## One step, by the host's next act -/

theorem step_command {s : State} {c : Command} {rest : List HostInput} (h : s.pending = .command c :: rest) :
    step s = operate c { s with pending := rest } := by
  simp [step, h]

theorem step_reset {s : State} {rest : List HostInput} (h : s.pending = .reset :: rest) :
    step s = .next (hardwareReset { s with pending := rest }) := by
  simp [step, h]

theorem step_write {s : State} {base : Nat} {bytes : List Byte} {rest : List HostInput}
    (h : s.pending = .write base bytes :: rest) :
    step s = .next (hostWrite base bytes { s with pending := rest }) := by
  simp [step, h]

/-- A legal word whose operands fit their ports is executed (R193). -/
theorem operate_decoded {c : Command} {i : Instr} {s : State} (hdec : decode c = .ok i) (hwf : i.wf s.params = true) :
    operate c s = exec i s := by
  simp [operate, hdec, hwf]

/-- Settles O8: the command at the head of the pending acts is operated, and a decoded one is executed. -/
theorem stepRunsDecodedInstruction : Obligations.StepRunsDecodedInstruction := by
  intro s c rest i hp hdec hwf
  exact (step_command hp).trans (operate_decoded hdec hwf)

/-- Settles O2: a reset builds its state from the fields it keeps, and a host write reads back as the bytes it wrote. -/
theorem hostActsTouchOnlyHostSide : Obligations.HostActsTouchOnlyHostSide := by
  refine fun s rest => ⟨fun hp => ⟨_, step_reset hp, rfl, rfl, rfl, rfl⟩, fun base bytes hp => ?write⟩
  case write =>
    refine ⟨s.mem.writeBytes base bytes, step_write hp, fun k hk => ?written, fun a ha => ?others⟩
    case written => simp [Memory.read_writeBytes, hk]
    case others =>
      have hout : ¬ (base ≤ a ∧ a < base + bytes.length) :=
        fun ⟨hlo, hhi⟩ => ha (a - base) (by omega) (by omega)
      rw [Memory.read_writeBytes, if_neg hout]

/-! ## The buffers a `SYNC.STEP` refuses (R59, R228) -/

/-- Two buffers are disjoint exactly when no byte of the one is a byte of the other (R59). -/
theorem buffersOverlap_eq_false_iff (a b : Buffer) :
    buffersOverlap a b = false ↔ ∀ i < a.len, ∀ j < b.len, a.base + i ≠ b.base + j := by
  rw [← Bool.not_eq_true, buffersOverlap_iff]
  simp

/-- A buffer lacks a byte exactly when one of its addresses reads nothing (R228). -/
theorem Memory.holds_eq_false_iff (m : Memory) (b : Buffer) :
    m.holds b = false ↔ ∃ i < b.len, m.read (b.base + i) = none := by
  rw [← Bool.not_eq_true, Memory.holds_iff]
  simp

/-- A `SYNC.STEP` that passes the mode and operand checks is refused for the buffer duty it breaks. -/
theorem execSyncStep_refused {s : State} {r : StepRecord} {why : Refusal} (hm : s.mode = .configured)
    (hchecks : stepProblem s r = none) (hbuf : bufferProblem s.mem r = some why) :
    execSyncStep r s = .refused why := by
  rw [execSyncStep, whenConfigured_configured hm, hchecks, hbuf]

/-- Settles O32: past the operand checks the outcome is that of the first buffer duty broken. -/
theorem overlappingBuffersRefused : Obligations.OverlappingBuffersRefused := by
  intro s r hm hwindow hevents hout hoffset
  have refused {why : Refusal} : bufferProblem s.mem r = some why → exec (.syncStep r) s = .refused why :=
    execSyncStep_refused hm ((stepProblem_none_iff s r).mpr ⟨hwindow, hevents, hout, hoffset⟩)
  refine ⟨fun hoverlap => refused ?overlap, fun hdisjoint => ?disjoint⟩
  case overlap =>
    simp [bufferProblem, (buffersOverlap_iff r.window r.out).mpr hoverlap]
  case disjoint =>
    have hno := (buffersOverlap_eq_false_iff r.window r.out).mpr hdisjoint
    refine ⟨fun hlacks => refused ?window, fun hreadable hlacks => refused ?output⟩
    case window =>
      simp [bufferProblem, hno, (s.mem.holds_eq_false_iff r.window).mpr hlacks]
    case output =>
      simp [bufferProblem, hno, (s.mem.holds_iff r.window).mpr hreadable, (s.mem.holds_eq_false_iff r.out).mpr hlacks]

/-! ## The offset (R54) -/

/-- One invocation adds to `abs_pos` the count it answers as consumed (R135, R141). -/
theorem extract_absPos {r : StepRecord} {s : State} {a : Response} (h : (extract r s).resp = some a) :
    (extract r s).absPos = s.absPos + a.consumed := by
  rcases extract_cases r s with ⟨-, he⟩ | ⟨-, -, he⟩ | ⟨t, -, -, he⟩ <;>
    (rw [he] at h ⊢; obtain rfl := Option.some.inj h; rfl)

/-- Settles O31: an overflow is refused before anything is written; an invocation that is performed keeps the invariants,
and an error leaves `abs_pos` where it was. -/
theorem absPosNeverWraps : Obligations.AbsPosNeverWraps := by
  refine fun s r hinv hm => ⟨fun hwindow hevents hout hover => ?overflow, fun t a hx ha => ?answered⟩
  case overflow =>
    simp [exec, execSyncStep, whenConfigured_configured hm, stepProblem_offsetOverflow hwindow hevents hout hover, raiseErr]
  case answered =>
    rcases execSyncStep_next hx with ⟨hr, rfl⟩ | ⟨e, rfl, -⟩
    · have hbound := (inv_extract hinv hr).offset
      simp only [extract_frame] at hbound
      exact ⟨extract_absPos ha, hbound⟩
    · obtain rfl := Option.some.inj ha
      exact ⟨rfl, hinv.offset⟩

end Sys2Proof.Machine
end

section
/-! PROOF. The encodings (R76 to R81, R87): the decoder by the fields of a word, the words it rejects, the width check of
`ENC` and `DEC`, and the groups of a byte. -/

namespace Sys2Proof

/-! ## The decoder by the fields of a word -/

/-- `decode_ok_cases` with its converse: exactly these fields decode, and to these instructions (R81). -/
theorem decode_ok_iff_fields {c : Command} {i : Instr} : decode c = .ok i ↔
    rsvField c.word = 0 ∧
    ((opField c.word = 0x1 ∧ i = .enc (dataField c.word)) ∨
     (opField c.word = 0x2 ∧ i = .dec (dataField c.word)) ∨
     (dataField c.word = 0 ∧
      ((opField c.word = 0x3 ∧ i = .encRst) ∨ (opField c.word = 0x4 ∧ i = .decRst) ∨
       (opField c.word = 0x5 ∧ i = .syncStep c.step) ∨ (opField c.word = 0x6 ∧ i = .syncRst) ∨
       (opField c.word = 0x7 ∧ i = .cfg c.cfg)))) := by
  refine ⟨decode_ok_cases, ?_⟩
  rintro ⟨hrsv, ⟨hop, rfl⟩ | ⟨hop, rfl⟩ | ⟨hdata, hrow⟩⟩
  · simp [decode, hrsv, hop]
  · simp [decode, hrsv, hop]
  · rcases hrow with ⟨hop, rfl⟩ | ⟨hop, rfl⟩ | ⟨hop, rfl⟩ | ⟨hop, rfl⟩ | ⟨hop, rfl⟩ <;>
      simp [decode, withoutOperand, hrsv, hop, hdata]

/-- The encoder's word decodes, whatever the record port holds that the instruction does not read. -/
theorem decode_of_encode_word {c : Command} {i : Instr} (hword : c.word = (encode i).word)
    (hstep : ∀ r, i = .syncStep r → c.step = r) (hcfg : ∀ r, i = .cfg r → c.cfg = r) : decode c = .ok i := by
  rw [decode_ok_iff_fields, hword]
  cases i with
  | syncStep r => simp [encode, Command.ofWord, opField_cmdWord, rsvField_cmdWord, dataField_cmdWord, hstep r rfl]
  | cfg r => simp [encode, Command.ofWord, opField_cmdWord, rsvField_cmdWord, dataField_cmdWord, hcfg r rfl]
  | _ => simp [encode, Command.ofWord, opField_cmdWord, rsvField_cmdWord, dataField_cmdWord]

/-- A word that decodes is the encoder's word, since it is its three fields put together. -/
theorem encode_word_of_decode {c : Command} {i : Instr} (h : decode c = .ok i) :
    c.word = (encode i).word ∧ (∀ r, i = .syncStep r → c.step = r) ∧ (∀ r, i = .cfg r → c.cfg = r) := by
  obtain ⟨hrsv, hrow⟩ := decode_ok_cases h
  rw [← cmdWord_fields c.word hrsv]
  rcases hrow with ⟨hop, rfl⟩ | ⟨hop, rfl⟩ | ⟨hdata, ⟨hop, rfl⟩ | ⟨hop, rfl⟩ | ⟨hop, rfl⟩ | ⟨hop, rfl⟩ | ⟨hop, rfl⟩⟩ <;>
    simp [encode, Command.ofWord, *]

theorem decode_encode (i : Instr) : decode (encode i) = .ok i :=
  decode_of_encode_word rfl (by rintro r rfl; rfl) (by rintro r rfl; rfl)

/-- Settles O5: encoding writes the fields that the decoder reads, and a word is its fields. -/
theorem decodeEncodeAgree : Obligations.DecodeEncodeAgree :=
  ⟨decode_encode, fun _ _ => ⟨encode_word_of_decode, fun ⟨hword, hstep, hcfg⟩ => decode_of_encode_word hword hstep hcfg⟩⟩

/-- Settles O6: each word is the encoder's word of its instruction. -/
theorem sampleWordsDecode : Obligations.SampleWordsDecode :=
  ⟨decode_encode (.enc 3), decode_encode (.dec 2), decode_encode .encRst, decode_encode .decRst,
    decode_encode (.syncStep .zero), decode_encode .syncRst, decode_encode (.cfg .zero)⟩

/-! ## Words that decode to nothing -/

/-- Every row of the opcode map has `rsv = 0` and an opcode from 0x1 to 0x7 (R79, R80). -/
theorem decode_ne_ok_of_reserved {c : Command}
    (h : rsvField c.word ≠ 0 ∨ opField c.word = 0x0 ∨ 0x8 ≤ (opField c.word).toNat) (i : Instr) : decode c ≠ .ok i := by
  intro hdec
  obtain ⟨hrsv, hrow⟩ := decode_ok_cases hdec
  rcases hrow with ⟨hop, -⟩ | ⟨hop, -⟩ | ⟨-, ⟨hop, -⟩ | ⟨hop, -⟩ | ⟨hop, -⟩ | ⟨hop, -⟩ | ⟨hop, -⟩⟩ <;>
    simp [hrsv, hop] at h

/-- No operation but `ENC` and `DEC` has an operand (R78). -/
theorem decode_ne_ok_of_stray {c : Command} (hop : 0x3 ≤ (opField c.word).toNat) (hdata : dataField c.word ≠ 0) (i : Instr) :
    decode c ≠ .ok i := by
  intro hdec
  obtain ⟨-, ⟨h, -⟩ | ⟨h, -⟩ | ⟨h, -⟩⟩ := decode_ok_cases hdec
  · simp [h] at hop
  · simp [h] at hop
  · exact hdata h

/-! ## The two decode stages, in numbers -/

theorem opField_toNat (w : CmdWord) : (opField w).toNat = w.toNat / 4096 := by
  simp [opField, Nat.shiftRight_eq_div_pow]
  omega

theorem rsvField_toNat (w : CmdWord) : (rsvField w).toNat = w.toNat / 256 % 16 := by
  simp [rsvField, Nat.shiftRight_eq_div_pow]

theorem dataField_toNat (w : CmdWord) : (dataField w).toNat = w.toNat % 256 := by
  simp [dataField]

/-- The second stage accepts an instruction exactly when a group it carries has at most `K` bits (R78). -/
theorem decodeWidth_ok_iff (k : Nat) (i : Instr) :
    decodeWidth k i = .ok i ↔ ∀ data, i = .enc data ∨ i = .dec data → data.toNat < 2 ^ k := by
  cases i <;> simp [decodeWidth, groupFits]

/-- A command passes both stages exactly when its fields are those of a row of the opcode map, its group within `K` bits (R81). -/
theorem legal_iff_fields (k : Nat) (c : Command) : (∃ i, decode c = .ok i ∧ decodeWidth k i = .ok i) ↔
    rsvField c.word = 0 ∧
    (((opField c.word = 0x1 ∨ opField c.word = 0x2) ∧ (dataField c.word).toNat < 2 ^ k) ∨
     (dataField c.word = 0 ∧ opField c.word ∈ [0x3, 0x4, 0x5, 0x6, 0x7])) := by
  simp only [decode_ok_iff_fields, decodeWidth_ok_iff]
  constructor
  · rintro ⟨i, ⟨hrsv, ⟨hop, rfl⟩ | ⟨hop, rfl⟩ | ⟨hdata, hrow⟩⟩, hwidth⟩
    · exact ⟨hrsv, .inl ⟨.inl hop, hwidth _ (.inl rfl)⟩⟩
    · exact ⟨hrsv, .inl ⟨.inr hop, hwidth _ (.inr rfl)⟩⟩
    · refine ⟨hrsv, .inr ⟨hdata, ?_⟩⟩
      rcases hrow with ⟨hop, -⟩ | ⟨hop, -⟩ | ⟨hop, -⟩ | ⟨hop, -⟩ | ⟨hop, -⟩ <;> simp [hop]
  · rintro ⟨hrsv, ⟨hop | hop, hwidth⟩ | ⟨hdata, hop⟩⟩
    · exact ⟨_, ⟨hrsv, .inl ⟨hop, rfl⟩⟩, by simpa using hwidth⟩
    · exact ⟨_, ⟨hrsv, .inr (.inl ⟨hop, rfl⟩)⟩, by simpa using hwidth⟩
    · simp only [List.mem_cons, List.not_mem_nil, or_false] at hop
      rcases hop with hop | hop | hop | hop | hop <;> simp [hrsv, hdata, hop]

/-- Settles O7: the fields of a legal word, as numbers, leave thirteen words. -/
theorem legalWordsForFourSymbols : Obligations.LegalWordsForFourSymbols := by
  intro c
  rw [legal_iff_fields]
  simp only [BitVec.toNat_eq, opField_toNat, rsvField_toNat, dataField_toNat, BitVec.ofNat_eq_ofNat,
    BitVec.toNat_ofNat, Nat.reducePow, Nat.reduceMod, List.mem_cons, List.not_mem_nil, or_false]
  omega

/-! ## The groups of a byte (R87) -/

section
variable {k : Nat} (hk : k ∣ 8) (v : Byte)
include hk

theorem byteGroups_of_dvd : byteGroups k v =
    (List.range (8 / k)).map (fun j => BitVec.ofNat 8 (v.toNat / 2 ^ (8 - k * (j + 1)) % 2 ^ k)) := by
  simp [byteGroups, Nat.mod_eq_zero_of_dvd hk]

/-- A group of `K` bits fits a byte. -/
theorem group_toNat (n : Nat) : (BitVec.ofNat 8 (n % 2 ^ k)).toNat = n % 2 ^ k := by
  have hle : 2 ^ k ≤ 2 ^ 8 := Nat.pow_le_pow_right (by omega) (Nat.le_of_dvd (by omega) hk)
  have hlt : n % 2 ^ k < 2 ^ k := Nat.mod_lt _ (by positivity)
  exact Nat.mod_eq_of_lt (by omega)

theorem byteGroups_length : (byteGroups k v).length = 8 / k := by
  simp [byteGroups_of_dvd hk]

theorem byteGroups_lt : ∀ g ∈ byteGroups k v, g.toNat < 2 ^ k := by
  simp [byteGroups_of_dvd hk, group_toNat hk, Nat.mod_lt]

/-- All `8/K` groups put together are the byte's top 8 bits: `byteGroups_fold` to its end. -/
theorem byteGroups_rejoin : (byteGroups k v).foldl (fun acc g => acc * 2 ^ k + g.toNat) 0 = v.toNat := by
  have hbits : k * (8 / k) = 8 := Nat.mul_div_cancel' hk
  calc (byteGroups k v).foldl (fun acc g => acc * 2 ^ k + g.toNat) 0
      = (List.range (8 / k)).foldl (fun acc j => acc * 2 ^ k + v.toNat / 2 ^ (8 - k * (j + 1)) % 2 ^ k) 0 := by
        simp only [byteGroups_of_dvd hk, List.foldl_map, group_toNat hk]
    _ = v.toNat / 2 ^ (8 - k * (8 / k)) := byteGroups_fold k v.toNat v.isLt (8 / k) hbits.le
    _ = v.toNat := by simp [hbits]

end

/-- Settles O50: every listed `K` divides 8, and then the groups are the byte's bits in order. -/
theorem byteGroupsRejoin : Obligations.ByteGroupsRejoin := by
  intro k v hmem
  have hk : k ∣ 8 := by revert k; decide
  exact ⟨rfl, rfl, byteGroups_length hk v, byteGroups_lt hk v, byteGroups_rejoin hk v⟩

end Sys2Proof

namespace Sys2Proof.Machine

/-! ## What an illegal word is answered (R79, R80, R193) -/

/-- A command that decodes to no instruction is answered `ILLEGAL_OP` in every mode (R193). -/
theorem operate_illegal {c : Command} (h : ∀ i, decode c ≠ .ok i) (s : State) :
    operate c s = .next (s.answer { err := .illegalOp }) := by
  unfold operate
  cases hdec : decode c with
  | error _ => rfl
  | ok i => exact absurd hdec (h i)

/-- Settles O10: a reserved word decodes to nothing. -/
theorem reservedWordsAnswerIllegalOp : Obligations.ReservedWordsAnswerIllegalOp :=
  fun _ _ _ hpending hreserved => (step_command hpending).trans (operate_illegal (decode_ne_ok_of_reserved hreserved) _)

/-! ## The width check of `ENC` and `DEC` (R78) -/

/-- `data[7:K] = 0` says that the operand is below `2^K`. -/
theorem shiftRight_eq_zero_iff (data : Byte) (k : Nat) : data >>> k = 0 ↔ data.toNat < 2 ^ k := by
  simp [BitVec.toNat_eq, Nat.shiftRight_eq_div_pow, Nat.div_eq_zero_iff]

/-- Settles O11: in Configured mode `ENC` and `DEC` branch on the group's width alone, and a stray operand decodes to nothing. -/
theorem operandBitsOutsideGroupAreIllegal : Obligations.OperandBitsOutsideGroupAreIllegal := by
  refine ⟨fun s data hinv hm => ?group, fun s c hop hdata => operate_illegal (decode_ne_ok_of_stray hop hdata) s⟩
  case group =>
    obtain ⟨-, hK, hM⟩ := hinv.alphabet hm
    have hM256 : 2 ^ s.cfgK.toNat ≤ 2 ^ 8 := Nat.pow_le_pow_right (by omega) hK
    have henc := execEnc_configured hm data
    have hdec := execDec_configured hm data
    rw [ne_eq, shiftRight_eq_zero_iff]
    refine ⟨fun hwide => ⟨henc.trans (if_neg hwide), hdec.trans (if_neg hwide)⟩,
      fun hfits => ⟨hM ▸ hfits, ?encFits, ?decFits⟩⟩
    case encFits => exact ⟨_, _, henc.trans (if_pos hfits), rfl, addMod_toNat _ _ (by omega) (by omega)⟩
    case decFits => exact ⟨_, _, hdec.trans (if_pos hfits), rfl, rfl⟩

end Sys2Proof.Machine
end

section
/-! PROOF. The line codec (R100 to R109): what its four operations do, and a stream of groups sent over a link whose
channel shifts each symbol.

The link is proved once: in one group the encoder adds its register and the decoder takes its own register away, so
what remains of the group is the shift of this symbol less the shift the decoder's register still carries from the
symbol before. A rotation, a change of rotation and a single wrong symbol are three sequences of shifts. -/

namespace Sys2Proof

/-- A command word as a sum: its two fields share no bit (R76). -/
theorem cmdWord_eq_add (op : BitVec 4) (data : Byte) : cmdWord op data = op.setWidth 16 <<< 12 + data.setWidth 16 := by
  refine (BitVec.add_eq_or_of_and_eq_zero _ _ ?_).symm
  ext i hi
  by_cases h : i < 12
  · simp [h]
  · simp [BitVec.getLsbD_of_ge data i (by omega)]

end Sys2Proof

namespace Sys2Proof.Machine

/-! ## What each codec operation does (R101 to R104) -/

section
variable {s : State} (h : s.Inv) (hm : s.mode = .configured)
include h hm

/-- In Configured mode the alphabet is not empty and its symbols fit a byte (R71). -/
theorem State.Inv.alphabet_bounds : 0 < s.cfgM.toNat ∧ s.cfgM.toNat ≤ 256 := by
  obtain ⟨-, hK, hM⟩ := h.alphabet hm
  rw [hM]
  exact ⟨Nat.two_pow_pos _, Nat.pow_le_pow_right (by omega) hK⟩

/-- `ENC` on a group of the alphabet (R101). -/
theorem exec_enc_symbol {b : Byte} (hb : b.toNat < s.cfgM.toNat) :
    exec (.enc b) s = .next ((s.withEnc (addMod s.encPrev b s.cfgM)).answer
      { err := .ok, data := addMod s.encPrev b s.cfgM }) := by
  obtain ⟨-, -, hM⟩ := h.alphabet hm
  exact (execEnc_configured hm b).trans (if_pos (hM ▸ hb))

/-- `DEC` on a symbol of the alphabet (R102). -/
theorem exec_dec_symbol {b : Byte} (hb : b.toNat < s.cfgM.toNat) :
    exec (.dec b) s = .next ((s.withDec b).answer { err := .ok, data := subMod b s.decPrev s.cfgM }) := by
  obtain ⟨-, -, hM⟩ := h.alphabet hm
  exact (execDec_configured hm b).trans (if_pos (hM ▸ hb))

/-- A symbol of the alphabet plus the group 0 is itself (R101). -/
theorem addMod_encPrev_zero : addMod s.encPrev 0 s.cfgM = s.encPrev := by
  obtain ⟨hpos, hle⟩ := h.alphabet_bounds hm
  obtain ⟨henc, -⟩ := h.symbols hm
  apply BitVec.eq_of_toNat_eq
  rw [addMod_toNat _ _ hpos hle]
  exact Nat.mod_eq_of_lt henc

end

/-- A symbol less itself is 0 (R102). -/
theorem subMod_self (b : Byte) (m : BitVec 9) : subMod b b m = 0 := by
  simp [subMod]

/-- From a register at 0 the decoder passes a symbol of the alphabet on (R107). -/
theorem subMod_zero {b : Byte} {m : BitVec 9} (hb : b.toNat < m.toNat) : subMod b 0 m = b := by
  have hmod : (b.toNat : Int) % (m.toNat : Int) = b.toNat := by exact_mod_cast Nat.mod_eq_of_lt hb
  simp [subMod, hmod]

/-- Settles O21: the register after `ENC` is the old one plus the group, and the width check and the mode checks come first. -/
theorem encEncodesDifferentially : Obligations.EncEncodesDifferentially := by
  intro s b h
  refine ⟨cmdWord_eq_add 0x1 b, fun hm hb => ?fits, fun hm hb => ?wide,
    fun hm => (exec_gated _ s).2 hm nofun, (exec_gated _ s).1⟩
  case fits =>
    obtain ⟨hpos, hle⟩ := h.alphabet_bounds hm
    obtain ⟨-, -, hM⟩ := h.alphabet hm
    exact ⟨_, addMod_toNat _ _ hpos hle, exec_enc_symbol h hm (hM ▸ hb), by rintro rfl; exact addMod_encPrev_zero h hm⟩
  case wide => exact (execEnc_configured hm b).trans (if_neg (by omega))

/-- Settles O22: `DEC` answers the symbol less the register and keeps the symbol, and the checks are those of `ENC`. -/
theorem decDecodesDifferentially : Obligations.DecDecodesDifferentially := by
  intro s sym h
  refine ⟨cmdWord_eq_add 0x2 sym, fun hm hsym => ?fits, fun hm hsym => ?wide,
    fun hm => (exec_gated _ s).2 hm nofun, (exec_gated _ s).1⟩
  case fits =>
    obtain ⟨hpos, hle⟩ := h.alphabet_bounds hm
    obtain ⟨-, -, hM⟩ := h.alphabet hm
    refine ⟨_, subMod_toNat _ _ hpos hle, exec_dec_symbol h hm (hM ▸ hsym), ?same, ?first⟩
    case same => rintro rfl; exact subMod_self _ _
    case first => intro hprev; rw [hprev]; exact subMod_zero (hM ▸ hsym)
  case wide => exact (execDec_configured hm sym).trans (if_neg (by omega))

/-- Settles O23: each reset passes the mode checks and then writes its own register; a stray operand decodes to nothing. -/
theorem codecResetsClearOneRegister : Obligations.CodecResetsClearOneRegister := by
  refine ⟨rfl, rfl, fun s => ⟨fun hm => ?configured, fun hm => ?unconfigured, fun hm => ?fatal, fun c hop hdata => ?stray⟩⟩
  case configured => exact ⟨whenConfigured_configured hm _, whenConfigured_configured hm _⟩
  case unconfigured => exact ⟨whenConfigured_unconfigured hm _, whenConfigured_unconfigured hm _⟩
  case fatal => exact ⟨whenConfigured_fatal hm _, whenConfigured_fatal hm _⟩
  case stray =>
    have hop3 : 0x3 ≤ (opField c.word).toNat := by rcases hop with hop | hop <;> simp [hop]
    exact operate_illegal (decode_ne_ok_of_stray hop3 hdata) s

/-! ## One group over a link -/

/-- A link between two steps: two Configured ends under one alphabet, the decoder's register the encoder's shifted
by `c`, the shift of the symbol received last. -/
structure Link (c : Nat) (tx rx : State) : Prop where
  txInv : tx.Inv
  rxInv : rx.Inv
  txConfigured : tx.mode = .configured
  rxConfigured : rx.mode = .configured
  alphabet : rx.cfgM = tx.cfgM
  registers : rx.decPrev.toNat = (tx.encPrev.toNat + c) % tx.cfgM.toNat

/-- Two ends with both registers at 0 are a link that has shifted nothing. -/
theorem Link.ofZero {tx rx : State} (htx : tx.Inv) (hrx : rx.Inv) (htm : tx.mode = .configured)
    (hrm : rx.mode = .configured) (hM : tx.cfgM = rx.cfgM) (henc : tx.encPrev = 0) (hdec : rx.decPrev = 0) :
    Link 0 tx rx :=
  ⟨htx, hrx, htm, hrm, hM.symm, by simp [henc, hdec]⟩

/-- The decoder's difference of the encoder's sum: the common register `p` cancels. -/
theorem shifted_difference (p b r c m : Nat) :
    ((((p + b) % m + r) % m : Nat) - ((p + c) % m : Nat) : Int) % m = (b + r - c) % m := by
  push_cast
  rw [Int.emod_add_emod, ← Int.sub_emod]
  congr 1
  ring

/-- One group over a link whose channel shifts its symbol by `r`: the encoder answers a symbol of the alphabet, the
decoder the group shifted by `r - c`, and the link then carries `r` (R105). -/
theorem Link.step {c r : Nat} {tx rx : State} (hl : Link c tx rx) {b : Byte} (hb : b.toNat < tx.cfgM.toNat)
    {f : Byte → Byte} (hf : ∀ x, x.toNat < tx.cfgM.toNat → (f x).toNat = (x.toNat + r) % tx.cfgM.toNat) :
    ∃ (sym d : Byte) (tx' rx' : State),
      exec (.enc b) tx = .next (tx'.answer { err := .ok, data := sym }) ∧
      exec (.dec (f sym)) rx = .next (rx'.answer { err := .ok, data := d }) ∧
      (d.toNat : Int) = ((b.toNat : Int) + r - c) % (tx.cfgM.toNat : Int) ∧ tx'.cfgM = tx.cfgM ∧
      Link r (tx'.answer { err := .ok, data := sym }) (rx'.answer { err := .ok, data := d }) := by
  obtain ⟨htx, hrx, htm, hrm, hM, hreg⟩ := hl
  obtain ⟨hpos, hle⟩ := htx.alphabet_bounds htm
  have hsym := addMod_toNat tx.encPrev b hpos hle
  have hsymlt : (addMod tx.encPrev b tx.cfgM).toNat < tx.cfgM.toNat := hsym ▸ Nat.mod_lt _ hpos
  have hrec := hf _ hsymlt
  have hreclt : (f (addMod tx.encPrev b tx.cfgM)).toNat < rx.cfgM.toNat := by
    rw [hrec, hM]; exact Nat.mod_lt _ hpos
  refine ⟨_, _, _, _, exec_enc_symbol htx htm hb, exec_dec_symbol hrx hrm hreclt, ?group, rfl, ?link⟩
  case group => rw [hM, subMod_toNat _ _ hpos hle, hrec, hreg, hsym, shifted_difference]
  case link =>
    exact ⟨inv_answer (inv_withEnc htx htm hsymlt) _, inv_answer (inv_withDec hrx hrm hreclt) _, htm, hrm, hM, hrec⟩

/-! ## A stream of groups over a link -/

/-- One more operation at the head of a codec run. -/
theorem codecRun_cons {op : Byte → Instr} {b d : Byte} {bs out : List Byte} {s t u : State}
    (hexec : exec (op b) s = .next (t.answer { err := .ok, data := d }))
    (hrun : codecRun op bs (t.answer { err := .ok, data := d }) = some (out, u)) :
    codecRun op (b :: bs) s = some (d :: out, u) := by
  simp [codecRun, hexec, hrun]

/-- The shift the decoder's register carries when symbol `i` arrives: `c` at first, then that of the symbol before. -/
def carriedShift (c : Nat) (δ : Nat → Nat) : Nat → Nat
  | 0 => c
  | i + 1 => δ i

theorem carriedShift_tail (c : Nat) (δ : Nat → Nat) (i : Nat) :
    carriedShift (δ 0) (fun j => δ (j + 1)) i = carriedShift c δ (i + 1) := by
  cases i <;> rfl

theorem carriedShift_constant (c i : Nat) : carriedShift c (fun _ => c) i = c := by
  cases i <;> rfl

/-- A channel `f` that shifts symbol `i` of an alphabet of `m` symbols by `δ i`. -/
def Shifts (m : Nat) (δ : Nat → Nat) (f : Nat → Byte → Byte) : Prop :=
  ∀ i x, x.toNat < m → (f i x).toNat = (x.toNat + δ i) % m

/-- A stream over a link whose channel shifts symbol `i` by `δ i`: group `i` arrives shifted by `δ i` less the shift
that the decoder's register carries. -/
theorem Link.run {c : Nat} {δ : Nat → Nat} {f : Nat → Byte → Byte} {bs : List Byte} {tx rx : State} (hl : Link c tx rx)
    (hbs : ∀ x ∈ bs, x.toNat < tx.cfgM.toNat) (hf : Shifts tx.cfgM.toNat δ f) :
    ∃ (syms out : List Byte) (tx' rx' : State),
      codecRun .enc bs tx = some (syms, tx') ∧ codecRun .dec (syms.mapIdx f) rx = some (out, rx') ∧
      out.length = bs.length ∧
      ∀ (i : Nat) (b d : Byte), bs[i]? = some b → out[i]? = some d →
        (d.toNat : Int) = ((b.toNat : Int) + δ i - carriedShift c δ i) % (tx.cfgM.toNat : Int) := by
  induction bs generalizing c δ f tx rx with
  | nil => exact ⟨[], [], tx, rx, rfl, rfl, rfl, by simp⟩
  | cons b bs ih =>
    obtain ⟨hb, hbs⟩ := List.forall_mem_cons.mp hbs
    obtain ⟨sym, d, tx₁, rx₁, henc, hdec, hd, hM, hl₁⟩ := hl.step hb (hf 0)
    obtain ⟨syms, out, tx', rx', hencs, hdecs, hlen, hout⟩ :=
      ih hl₁ (by simpa [hM] using hbs) (δ := fun i => δ (i + 1)) (f := fun i => f (i + 1))
        (fun i x hx => by simpa [hM] using hf (i + 1) x (by simpa [hM] using hx))
    refine ⟨sym :: syms, d :: out, tx', rx', codecRun_cons henc hencs, ?dec, by simp [hlen], ?groups⟩
    case dec =>
      rw [List.mapIdx_cons]
      exact codecRun_cons hdec hdecs
    case groups =>
      intro i b' d' hb' hd'
      cases i with
      | zero =>
        simp only [List.getElem?_cons_zero, Option.some.injEq] at hb' hd'
        subst hb' hd'
        exact hd
      | succ i =>
        rw [← carriedShift_tail c]
        simpa [hM] using hout i b' d' hb' hd'

/-- Over a channel that shifts every symbol by the shift already carried, the groups arrive as they were sent. -/
theorem Link.run_constant {c : Nat} {f : Byte → Byte} {bs : List Byte} {tx rx : State} (hl : Link c tx rx)
    (hbs : ∀ x ∈ bs, x.toNat < tx.cfgM.toNat)
    (hf : ∀ x, x.toNat < tx.cfgM.toNat → (f x).toNat = (x.toNat + c) % tx.cfgM.toNat) :
    ∃ (syms : List Byte) (tx' rx' : State),
      codecRun .enc bs tx = some (syms, tx') ∧ codecRun .dec (syms.map f) rx = some (bs, rx') := by
  obtain ⟨syms, out, tx', rx', henc, hdec, hlen, hout⟩ := hl.run hbs (δ := fun _ => c) (f := fun _ => f) fun _ => hf
  have hsame : out = bs := by
    refine List.ext_getElem hlen fun i hi hi' => BitVec.eq_of_toNat_eq ?_
    have hgroup := hout i _ _ (List.getElem?_eq_getElem hi') (List.getElem?_eq_getElem hi)
    rw [carriedShift_constant, Int.add_sub_cancel] at hgroup
    have hlt := Nat.mod_eq_of_lt (hbs _ (List.getElem_mem hi'))
    omega
  have hmap : syms.mapIdx (fun _ => f) = syms.map f := by
    apply List.ext_getElem <;> simp
  exact ⟨syms, tx', rx', henc, hmap ▸ hsame ▸ hdec⟩

/-! ## Rotations and symbol errors (R105 to R109) -/

/-- A rotation of a symbol is its shift modulo `M` (R11). -/
theorem rotate_toNat {m : Nat} (hpos : 0 < m) (hle : m ≤ 256) (r : Nat) (b : Byte) :
    (rotate m r b).toNat = (b.toNat + r) % m := by
  have := Nat.mod_lt (b.toNat + r) hpos
  simp only [rotate, BitVec.toNat_ofNat]
  omega

/-- Settles O24: the first group arrives rotated by `r`, and from then on the link carries that rotation. -/
theorem rotationCancels : Obligations.RotationCancels := by
  intro tx rx b bs r htx hrx htm hrm hM henc hdec _ hbs
  obtain ⟨hpos, hle⟩ := htx.alphabet_bounds htm
  obtain ⟨hb, hbs⟩ := List.forall_mem_cons.mp hbs
  have hrot : ∀ x : Byte, x.toNat < tx.cfgM.toNat → (rotate tx.cfgM.toNat r x).toNat = (x.toNat + r) % tx.cfgM.toNat :=
    fun x _ => rotate_toNat hpos hle r x
  obtain ⟨sym, d, tx₁, rx₁, hencb, hdecb, hd, hM₁, hl₁⟩ :=
    (Link.ofZero htx hrx htm hrm hM henc hdec).step hb hrot
  obtain ⟨syms, tx', rx', hencs, hdecs⟩ :=
    hl₁.run_constant (by simpa [hM₁] using hbs) (by simpa [hM₁] using hrot)
  obtain rfl : d = rotate tx.cfgM.toNat r b := by
    apply BitVec.eq_of_toNat_eq
    rw [hrot b hb]
    simp only [Nat.cast_zero, Int.sub_zero] at hd
    exact_mod_cast hd
  exact ⟨sym :: syms, tx', rx', codecRun_cons hencb hencs, codecRun_cons hdecb hdecs⟩

/-- Settles O25: a channel that changes nothing is the constant shift by 0. -/
theorem noRotationRoundTrip : Obligations.NoRotationRoundTrip := by
  intro tx rx bs htx hrx htm hrm hM henc hdec hbs
  obtain ⟨syms, tx', rx', hencs, hdecs⟩ :=
    (Link.ofZero htx hrx htm hrm hM henc hdec).run_constant hbs (f := id) fun x hx => (Nat.mod_eq_of_lt hx).symm
  exact ⟨syms, tx', rx', hencs, by simpa using hdecs⟩

/-- Settles O26: the shift is `r1` and then `r2`, so it differs from the carried one at the first group and at group `j` only. -/
theorem rotationChangeCorruptsOneGroup : Obligations.RotationChangeCorruptsOneGroup := by
  intro tx rx bs r1 r2 j htx hrx htm hrm hM henc hdec _ _ hj hbs
  obtain ⟨hpos, hle⟩ := htx.alphabet_bounds htm
  obtain ⟨syms, out, tx', rx', hencs, hdecs, hlen, hout⟩ :=
    (Link.ofZero htx hrx htm hrm hM henc hdec).run hbs (δ := fun i => if i < j then r1 else r2)
      (f := fun i => rotate tx.cfgM.toNat (if i < j then r1 else r2)) fun i x _ => rotate_toNat hpos hle _ x
  refine ⟨syms, out, tx', rx', hencs, hdecs, hlen, fun i b d hb hd => (hout i b d hb hd).trans ?_⟩
  congr 1
  cases i with
  | zero => simp [carriedShift, show 0 < j by omega]
  | succ i =>
    simp only [carriedShift, Nat.succ_ne_zero, if_false]
    split_ifs <;> omega

/-- Settles O27: the shift is `e` at symbol `j` and 0 elsewhere, and the register carries it to group `j + 1`. -/
theorem symbolErrorCorruptsTwoGroups : Obligations.SymbolErrorCorruptsTwoGroups := by
  intro tx rx bs e j htx hrx htm hrm hM henc hdec _ _ hbs
  obtain ⟨hpos, hle⟩ := htx.alphabet_bounds htm
  have hf : Shifts tx.cfgM.toNat (fun i => if i = j then e else 0)
      (fun i x => if i = j then rotate tx.cfgM.toNat e x else x) := by
    intro i x hx
    by_cases hi : i = j
    · simp only [hi, if_true]
      exact rotate_toNat hpos hle e x
    · simp only [hi, if_false]
      exact (Nat.mod_eq_of_lt hx).symm
  obtain ⟨syms, out, tx', rx', hencs, hdecs, hlen, hout⟩ := (Link.ofZero htx hrx htm hrm hM henc hdec).run hbs hf
  refine ⟨syms, out, tx', rx', hencs, hdecs, hlen, fun i b d hb hd => (hout i b d hb hd).trans ?_⟩
  congr 1
  cases i with
  | zero =>
    simp only [carriedShift, show ¬ 0 = j + 1 by omega, if_false]
    split_ifs <;> omega
  | succ i =>
    simp only [carriedShift]
    split_ifs <;> omega

end Sys2Proof.Machine
end

section
/-! PROOF. The sync frame extractor (R130 to R149): what a `SYNC.STEP` and a `SYNC.RST` do, in one invocation. -/

namespace Sys2Proof.Machine

/-! ## The errors, and the new session (R132, R147) -/

/-- A `SYNC.STEP` whose operands fail a check answers the check's error (R132). -/
theorem exec_syncStep_problem {s : State} {r : StepRecord} {e : ErrCode} (hm : s.mode = .configured)
    (hchecks : stepProblem s r = some e) : exec (.syncStep r) s = .next (s.answer { err := e }) := by
  rw [exec, execSyncStep, whenConfigured_configured hm, hchecks]
  rfl

/-- Settles O30: each operand over its bound fails the first check, a window past the top offset the second. -/
theorem syncStepOperandChecks : Obligations.SyncStepOperandChecks := by
  intro s r
  refine ⟨fun hm => ⟨fun hover => ?limit, fun hwindow hevents hout hover => ?overflow⟩,
    fun hm => (exec_gated _ s).2 hm nofun, fun hm => (exec_gated _ s).1 hm⟩
  case limit => exact exec_syncStep_problem hm (stepProblem_windowLimit hover)
  case overflow => exact exec_syncStep_problem hm (stepProblem_offsetOverflow hwindow hevents hout hover)

/-- Settles O46: in Configured mode the new session is one update, and a stray operand decodes to nothing. -/
theorem syncRstStartsSession : Obligations.SyncRstStartsSession := by
  refine ⟨rfl, fun s => ⟨fun hm => ?session, fun hm => (exec_gated _ s).2 hm nofun, fun hm => (exec_gated _ s).1 hm,
    fun c hop hdata => operate_illegal (decode_ne_ok_of_stray (by simp [hop]) hdata) s⟩⟩
  case session =>
    rw [exec, execSyncRst, whenConfigured_configured hm]
    rfl

/-! ## One invocation that is performed (R135, R136, R139 to R142) -/

/-- The copy of a ready `SYNC.STEP` from a cursor inside its window, field by field and byte by byte. -/
theorem copyPhase_outcome {s : State} {r : StepRecord} (hr : StepReady s r) {cursor : Nat} (hc : cursor ≤ r.window.len)
    (left : Nat) (detected : Option Nat) : CopyOutcome s r cursor left detected (copyPhase r cursor left detected s) := by
  obtain ⟨hcount, hread, hother, hlen, hmoved⟩ := copy_spec hr cursor left hc
  refine ⟨copyCount r cursor left, copiedMem r cursor left s, _, hcount, hread, hother, hlen, hmoved,
    fun hdone => ?done, fun hmore => ?more⟩
  case done => exact copyPhase_done detected s (by omega)
  case more => exact copyPhase_more detected s (by omega)

/-! What `copyPhase` answers and where it leaves the session, whether or not the payload is done. -/

section
variable (r : StepRecord) (cursor left : Nat) (detected : Option Nat) (s : State)

@[simp] theorem copyPhase_resp : (copyPhase r cursor left detected s).resp = some
    { err := .ok, consumed := cursor + copyCount r cursor left, produced := copyCount r cursor left,
      payloadDone := decide (left - copyCount r cursor left = 0), detectValid := detected.isSome,
      detectOffset := detected.getD 0 } := rfl
@[simp] theorem copyPhase_remaining :
    (copyPhase r cursor left detected s).remaining = left - copyCount r cursor left := rfl
@[simp] theorem copyPhase_absPos :
    (copyPhase r cursor left detected s).absPos = s.absPos + (cursor + copyCount r cursor left) := rfl
@[simp] theorem copyPhase_mem : (copyPhase r cursor left detected s).mem = copiedMem r cursor left s := rfl
@[simp] theorem copyPhase_xs : (copyPhase r cursor left detected s).xs =
    if left - copyCount r cursor left = 0 then .searching else .copying := by simp [copyPhase]

end

/-- A copy that moves no byte of an unfinished payload changes only `xs`, `remaining` and `abs_pos` (R139, R142). -/
theorem copyPhase_idle {r : StepRecord} {cursor left : Nat} (detected : Option Nat) (s : State)
    (hcount : copyCount r cursor left = 0) (hleft : 1 ≤ left) :
    copyPhase r cursor left detected s = State.answer
      { s with xs := .copying, remaining := left, absPos := s.absPos + cursor }
      { err := .ok, consumed := cursor, produced := 0, payloadDone := false,
        detectValid := detected.isSome, detectOffset := detected.getD 0 } := by
  rw [copyPhase_more detected s (by omega)]
  simp [hcount, gatheredBytes, copiedMem, State.withSx]

/-- By the spec's own reading the payload starts at the event's byte (D12). -/
theorem matchLead_off {p : Params} (h : p.startAfterMatch = false) : matchLead p = 0 := by simp [matchLead, h]

theorem IsPicked.absPos_le {s : State} {r : StepRecord} {e : SyncEvent} (h : IsPicked s r e) : s.absPos ≤ e.offset := by
  obtain ⟨-, ⟨-, hlo, -⟩, -⟩ := h
  exact hlo

/-- The local cursor at which a picked event starts the copy lies in the window (R136, I17). -/
theorem IsPicked.cursor_le {s : State} {r : StepRecord} {e : SyncEvent} (h : IsPicked s r e) :
    e.offset - s.absPos + matchLead s.params ≤ r.window.len := by
  obtain ⟨-, ⟨-, hlo, hhi⟩, -⟩ := h
  have hlead : matchLead s.params ≤ 1 := by unfold matchLead; split <;> omega
  omega

/-- A picked event starts the copy (R136). -/
theorem extract_of_picked {s : State} {r : StepRecord} {e : SyncEvent} (hx : s.xs = .searching) (he : IsPicked s r e) :
    extract r s = copyPhase r (e.offset - s.absPos + matchLead s.params) s.cfgP (some e.offset) s := by
  have hpick : pickedOffset s r = some e.offset := (pickedOffset_some s r _).mpr ⟨e, he, rfl⟩
  simp [extract, hx, hpick]

/-- Copying goes on from the start of the window (R137). -/
theorem extract_of_copying {s : State} (hx : s.xs = .copying) (r : StepRecord) :
    extract r s = copyPhase r 0 s.remaining none s := by
  simp [extract, hx]

/-- Searching without a valid event skips the window (R135). -/
theorem extract_of_no_event {s : State} {r : StepRecord} (hx : s.xs = .searching) (h : pickedOffset s r = none) :
    extract r s = skipWindow r s := by
  simp [extract, hx, h]

/-- Settles O33: no valid event is no picked one, and Searching has nothing remaining. -/
theorem searchingWithoutEventConsumesWindow : Obligations.SearchingWithoutEventConsumesWindow := by
  intro s r hinv hr hx hnone
  refine ⟨(execSyncStep_ready hr).trans ?_, (hinv.searching hx).1⟩
  rw [extract_of_no_event hx ((pickedOffset_none s r).mpr hnone)]
  rfl

/-- Settles O34: the copy starts at the cursor that `extract` gives it, and `copyPhase_outcome` describes it. -/
theorem syncStepCopies : Obligations.SyncStepCopies := by
  refine fun s r _ hr => ⟨fun hx => ⟨_, execSyncStep_ready hr, ?copying⟩, fun hswitch hx e he => ⟨_, execSyncStep_ready hr, ?searching⟩⟩
  case copying =>
    rw [extract_of_copying hx]
    exact copyPhase_outcome hr (Nat.zero_le _) _ _
  case searching =>
    have hcursor := he.cursor_le
    rw [extract_of_picked hx he]
    rw [matchLead_off hswitch] at hcursor ⊢
    exact copyPhase_outcome hr hcursor _ _

/-- Settles O41: an empty window has no valid event to start on and no byte to copy. -/
theorem emptyWindowChangesNothing : Obligations.EmptyWindowChangesNothing := by
  intro s r hinv hr hempty
  refine (execSyncStep_ready hr).trans (congrArg _ ?_)
  cases hx : s.xs with
  | searching =>
    have hnone : pickedOffset s r = none := (pickedOffset_none s r).mpr (by omega)
    rw [extract_of_no_event hx hnone]
    simp [skipWindow, State.answer, hempty, hx]
  | copying =>
    obtain ⟨hleft, -⟩ := hinv.copying hx
    rw [extract_of_copying hx, copyPhase_idle none s (by simp [copyCount, hempty]) hleft]
    simp [State.answer, ← hx]

/-! ## The events an invocation looks at (R134, R137) -/

/-- A `SYNC.STEP` depends on an event list within the bound only through the offset picked from it while Searching. -/
theorem exec_syncStep_events {s : State} {r : StepRecord} {ev : List SyncEvent}
    (hr : r.events.length ≤ s.params.maxEvents) (hev : ev.length ≤ s.params.maxEvents)
    (hpick : s.xs = .searching → pickedOffset s { r with events := ev } = pickedOffset s r) :
    exec (.syncStep { r with events := ev }) s = exec (.syncStep r) s := by
  have hchecks : stepProblem s { r with events := ev } = stepProblem s r := by
    simp [stepProblem, Nat.not_lt.mpr hr, Nat.not_lt.mpr hev]
  have hsame : extract { r with events := ev } s = extract r s := by
    cases hx : s.xs with
    | copying =>
      rw [extract_of_copying hx, extract_of_copying hx]
      rfl
    | searching =>
      simp only [extract, hx, hpick hx]
      rfl
  simp only [exec, execSyncStep, hchecks, hsame]
  rfl

/-- Settles O36: Copying picks no event, and two lists with one picked event pick the same offset. -/
theorem eventsWhileCopyingIgnored : Obligations.EventsWhileCopyingIgnored := by
  refine fun s r ev hr hev => ⟨fun hx => exec_syncStep_events hr hev (by simp [hx]),
    fun e he he' => exec_syncStep_events hr hev fun _ => ?_⟩
  rw [(pickedOffset_some s r _).mpr ⟨e, he, rfl⟩, (pickedOffset_some s _ _).mpr ⟨e, he', rfl⟩]

/-- Settles O37: the offset is picked among the valid events, so dropping the others leaves it. -/
theorem invalidEventsDiscarded : Obligations.InvalidEventsDiscarded := by
  refine fun s r hr => ⟨exec_syncStep_events hr ((List.length_filter_le _ _).trans hr) fun _ => ?pick, fun hempty e he => ?empty⟩
  case pick =>
    have hvalid : validEvent s.cfgKind s.absPos r.window.len =
        fun e => decide (e.kind = s.cfgKind ∧ s.absPos ≤ e.offset ∧ e.offset < s.absPos + r.window.len) := by
      funext e
      simp [validEvent, Bool.and_assoc]
    simp [pickedOffset, hvalid]
  case empty =>
    obtain ⟨-, ⟨-, hlo, hhi⟩, -⟩ := he
    omega

/-! ## Every invocation that answers `OK`: its counts and its payloads (R148, R157) -/

/-- A `SYNC.STEP` that answers is one invocation, ready, or an error that changes only `last_err` (R192). -/
theorem exec_syncStep_ready_or_error {s t : State} {r : StepRecord} (h : exec (.syncStep r) s = .next t) :
    (StepReady s r ∧ t = extract r s) ∨ ∃ e, e ≠ .ok ∧ t = s.answer { err := e } := by
  rcases execSyncStep_next h with hready | ⟨e, rfl, he⟩
  · exact .inl hready
  · exact .inr ⟨e, by rcases he with rfl | rfl | ⟨rfl, -⟩ | ⟨rfl, -⟩ <;> decide, rfl⟩

/-- A `SYNC.STEP` that answers `OK` was ready, and one invocation gives the state after it. -/
theorem exec_syncStep_ok {s t : State} {r : StepRecord} (h : exec (.syncStep r) s = .next t) {a : Response}
    (ha : t.resp = some a) (hok : a.err = .ok) : StepReady s r ∧ t = extract r s := by
  rcases exec_syncStep_ready_or_error h with hready | ⟨e, hne, rfl⟩
  · exact hready
  · obtain rfl := Option.some.inj ha
    exact absurd hok hne

/-- In Configured mode an invocation skips the window, or copies from a cursor inside it with a byte of the payload to go. -/
theorem extract_skips_or_copies {s : State} (hinv : s.Inv) (hm : s.mode = .configured) (r : StepRecord) :
    extract r s = skipWindow r s ∨
    ∃ cursor left detected, extract r s = copyPhase r cursor left detected s ∧
      cursor ≤ r.window.len ∧ 1 ≤ left ∧ left ≤ s.cfgP := by
  rcases extract_cases r s with ⟨hx, h⟩ | ⟨-, -, h⟩ | ⟨t, -, ht, h⟩
  · obtain ⟨hpos, hle, -⟩ := hinv.copying hx
    exact .inr ⟨_, _, _, h, Nat.zero_le _, hpos, hle⟩
  · exact .inl h
  · obtain ⟨e, he, rfl⟩ := (pickedOffset_some s r t).mp ht
    exact .inr ⟨_, _, _, h, he.cursor_le, hinv.packet hm, le_rfl⟩

theorem copyCount_le (r : StepRecord) (cursor left : Nat) :
    copyCount r cursor left ≤ r.window.len - cursor ∧ copyCount r cursor left ≤ left ∧
      copyCount r cursor left ≤ r.out.len := by
  unfold copyCount
  omega

/-- Settles O38: one copy moves no more than is in the window after the cursor, than is to go, and than there is room for. -/
theorem countBounds : Obligations.CountBounds := by
  intro s t r a hinv hx ha hok
  obtain ⟨hr, rfl⟩ := exec_syncStep_ok hx ha hok
  rcases extract_skips_or_copies hinv hr.configured r with h | ⟨cursor, left, detected, h, hcursor, hpos, hle⟩
  · rw [h] at ha
    obtain rfl := Option.some.inj ha
    simp
  · rw [h, copyPhase_resp] at ha
    obtain rfl := Option.some.inj ha
    obtain ⟨hwindow, hleft, hout⟩ := copyCount_le r cursor left
    simp only [decide_eq_true_eq]
    omega

/-- The bytes a copy moves, as they stand in the output buffer after it (R139, R148). -/
def movedBytes (r : StepRecord) (cursor left : Nat) (s : State) : List Byte :=
  (copiedMem r cursor left s).bytes r.out.base (copyCount r cursor left)

/-- The moved bytes are bytes of the window, and the output buffer holds them. -/
theorem movedBytes_spec {s : State} {r : StepRecord} (hr : StepReady s r) {cursor : Nat} (hc : cursor ≤ r.window.len)
    (left : Nat) : (movedBytes r cursor left s).length = copyCount r cursor left ∧
      ∀ k < copyCount r cursor left,
        (movedBytes r cursor left s)[k]? = s.mem.read (r.window.base + cursor + k) ∧
        (copiedMem r cursor left s).read (r.out.base + k) = s.mem.read (r.window.base + cursor + k) := by
  obtain ⟨-, hread, -, hlen, hmoved⟩ := copy_spec hr cursor left hc
  exact ⟨hlen, fun k hk => ⟨hmoved k hk, hread k hk⟩⟩

/-- Settles O39: `copyPhase` moves what is gathered to `payloads` or keeps it; the lengths are invariants. -/
theorem payloadSequence : Obligations.PayloadSequence := by
  refine ⟨⟨rfl, rfl⟩, fun s t r a hinv hx ha hok => ?_⟩
  obtain ⟨hr, rfl⟩ := exec_syncStep_ok hx ha hok
  have hinv' := inv_extract hinv hr
  refine ⟨?bytes, hinv'.payloads, fun hx' => (hinv'.copying hx').2.2, fun hx' => (hinv'.searching hx').2⟩
  case bytes =>
    rcases extract_skips_or_copies hinv hr.configured r with h | ⟨cursor, left, detected, h, hcursor, -⟩
    · rw [h] at ha ⊢
      obtain rfl := Option.some.inj ha
      exact ⟨[], by simp⟩
    · obtain ⟨hlen, hbytes⟩ := movedBytes_spec hr hcursor left
      rw [h] at ha ⊢
      rw [copyPhase_resp] at ha
      obtain rfl := Option.some.inj ha
      refine ⟨movedBytes r cursor left s, hlen, fun k hk => ?_, fun hdone => ?_, fun hmore => ?_⟩
      · obtain ⟨hmoved, hread⟩ := hbytes k hk
        exact hmoved.trans hread.symm
      · rw [copyPhase_done detected s (of_decide_eq_true hdone)]
        exact ⟨rfl, rfl⟩
      · rw [copyPhase_more detected s (of_decide_eq_false hmore)]
        exact ⟨rfl, rfl⟩

/-! ## An event at the last byte of a window (R155) -/

/-- A copy with a byte to move puts the byte at the cursor first (R136, R139). -/
theorem copyPhase_first_byte {s : State} {r : StepRecord} (hr : StepReady s r) {cursor left : Nat}
    (detected : Option Nat) (hc : cursor < r.window.len) (hleft : 1 ≤ left) (hroom : 1 ≤ r.out.len) :
    (copyPhase r cursor left detected s).mem.read r.out.base = s.mem.read (r.window.base + cursor) := by
  have hcount : 0 < copyCount r cursor left := by unfold copyCount; omega
  obtain ⟨-, hbytes⟩ := movedBytes_spec hr hc.le left
  obtain ⟨-, hread⟩ := hbytes 0 hcount
  rw [copyPhase_mem]
  exact hread

/-- Settles O40: the copy starts at cursor `n - 1`, so it moves one byte or, without room, none and stays idle;
the next window's first byte is then at its cursor. -/
theorem eventAtLastByte : Obligations.EventAtLastByte := by
  intro s r e hinv hr hswitch hx he hlast
  have hP := hinv.packet hr.configured
  have hlo := he.absPos_le
  have hcursor : e.offset - s.absPos + matchLead s.params = r.window.len - 1 := by
    rw [matchLead_off hswitch]
    omega
  have hexec : exec (.syncStep r) s = .next (copyPhase r (r.window.len - 1) s.cfgP (some e.offset) s) := by
    rw [← hcursor, ← extract_of_picked hx he]
    exact execSyncStep_ready hr
  refine ⟨fun hroom => ⟨_, _, hexec, copyPhase_resp .., ?room⟩, fun hfull => ?full⟩
  case room =>
    have hcount : copyCount r (r.window.len - 1) s.cfgP = 1 := by unfold copyCount; omega
    refine ⟨copyPhase_first_byte hr _ (by omega) hP hroom, hcount, ?_, ?_, fun hsingle => ?_⟩
    · rw [copyPhase_remaining, hcount]
    · simp only [hcount]
      omega
    · have hdone : s.cfgP - copyCount r (r.window.len - 1) s.cfgP = 0 := by omega
      exact ⟨decide_eq_true hdone, by rw [copyPhase_xs, if_pos hdone]⟩
  case full =>
    have hcount : copyCount r (r.window.len - 1) s.cfgP = 0 := by simp [copyCount, hfull]
    rw [copyPhase_idle _ s hcount hP] at hexec
    refine ⟨_, _, hexec, rfl, rfl, rfl, rfl, rfl, rfl, fun m r' _ hr' hwindow hroom => ?next⟩
    case next =>
      refine ⟨_, execSyncStep_ready hr', ?_⟩
      rw [extract_of_copying rfl]
      exact copyPhase_first_byte hr' none hwindow hP hroom

end Sys2Proof.Machine
end

section
/-! PROOF. Runs of deliveries (R138, R150 to R154): what one delivery does, and what it keeps along every run. -/

namespace Sys2Proof.Machine

/-! ## One delivery, and a run of them -/

/-- A delivery that succeeds is one invocation on the host's memory, ready there. -/
theorem deliver_some {d : Delivery} {s t : State} (h : deliver d s = some t) :
    StepReady { s with mem := d.mem } d.record ∧ t = extract d.record { s with mem := d.mem } := by
  unfold deliver at h
  split at h
  · rename_i t' hx
    split at h
    · rename_i hok
      obtain rfl := Option.some.inj h
      rcases exec_syncStep_ready_or_error hx with hready | ⟨e, hne, rfl⟩
      · exact hready
      · exact absurd hok hne
    · cases h
  · cases h

theorem deliver_inv {d : Delivery} {s t : State} (hinv : s.Inv) (hmem : d.mem.wf) (h : deliver d s = some t) : t.Inv := by
  obtain ⟨hr, rfl⟩ := deliver_some h
  exact inv_extract (inv_withMem hinv hmem) hr

/-- A run of at least one delivery is that delivery and a run from the state it leaves. -/
theorem deliveries_cons {d : Delivery} {ds : List Delivery} {s : State} {states : List State}
    (h : deliveries (d :: ds) s = some states) :
    ∃ t ts, deliver d s = some t ∧ deliveries ds t = some ts ∧ states = t :: ts := by
  unfold deliveries at h
  split at h
  · rename_i t ht
    obtain ⟨ts, hts, rfl⟩ := Option.map_eq_some_iff.mp h
    exact ⟨t, ts, ht, hts, rfl⟩
  · cases h

theorem lastState_cons (s t : State) (ts : List State) : lastState s (t :: ts) = lastState t ts :=
  List.getLastD_cons

/-- What holds at the start of a run and is kept by each of its deliveries holds at its end. -/
theorem deliveries_induction {holds : State → Prop} {ds : List Delivery} {s : State} {states : List State} (start : holds s)
    (keep : ∀ d ∈ ds, ∀ s t, holds s → deliver d s = some t → holds t) (h : deliveries ds s = some states) :
    holds (lastState s states) := by
  induction ds generalizing s states with
  | nil =>
    obtain rfl := Option.some.inj h
    exact start
  | cons d ds ih =>
    obtain ⟨t, ts, ht, hts, rfl⟩ := deliveries_cons h
    rw [lastState_cons]
    exact ih (keep d (by simp) s t start ht) (fun d' hd' => keep d' (by simp [hd'])) hts

/-! ## Deliveries without output capacity (R154) -/

/-- `t` is still Copying, with the session as it is in `s`. -/
def Stalled (s t : State) : Prop :=
  t.xs = .copying ∧ t.remaining = s.remaining ∧ t.absPos = s.absPos ∧ t.partialPayload = s.partialPayload ∧
    t.payloads = s.payloads

/-- While Copying, a delivery without room makes no progress. -/
theorem deliver_stalls {d : Delivery} {s t : State} (hinv : s.Inv) (hx : s.xs = .copying) (hroom : d.record.out.len = 0)
    (h : deliver d s = some t) : Stalled s t := by
  obtain ⟨-, rfl⟩ := deliver_some h
  obtain ⟨hleft, -⟩ := hinv.copying hx
  rw [extract_of_copying (s := { s with mem := d.mem }) hx, copyPhase_idle none _ (by simp [copyCount, hroom]) hleft]
  exact ⟨rfl, rfl, rfl, rfl, rfl⟩

/-- Settles O42: every delivery of the run stalls, in a state with the invariants. -/
theorem noProgressWithoutCapacity : Obligations.NoProgressWithoutCapacity := by
  intro ds s states hinv hx hroom hmem hrun
  suffices (lastState s states).Inv ∧ Stalled s (lastState s states) from this.2
  refine deliveries_induction (holds := fun t => t.Inv ∧ Stalled s t) ⟨hinv, hx, rfl, rfl, rfl, rfl⟩ ?keep hrun
  case keep =>
    rintro d hd u t ⟨hu, hxu, hrem, hpos, hpart, hpay⟩ ht
    obtain ⟨hxt, hrem', hpos', hpart', hpay'⟩ := deliver_stalls hu hxu (hroom d hd) ht
    exact ⟨deliver_inv hu (hmem d hd) ht, hxt, hrem'.trans hrem, hpos'.trans hpos, hpart'.trans hpart, hpay'.trans hpay⟩

/-! ## Where the sessions of a run start (R138, R146, R150) -/

theorem detections_cons (t : State) (ts : List State) : detections (t :: ts) = detections [t] ++ detections ts :=
  List.filterMap_append (l := [t])

theorem detections_copyPhase (r : StepRecord) (cursor left : Nat) (detected : Option Nat) (s : State) :
    detections [copyPhase r cursor left detected s] = detected.toList := by
  cases detected <;> simp [detections]

/-- The offset before which no new session starts: where the session in progress ends (R26, R139). -/
def State.sessionEnd (s : State) : Nat := s.absPos + s.remaining

/-- A delivery starts no session and never moves `sessionEnd` back, or it starts one session at or past `sessionEnd`
that ends at least `P` bytes after its start (R136, R139). -/
theorem deliver_detects {d : Delivery} {s t : State} (hinv : s.Inv) (h : deliver d s = some t) :
    (detections [t] = [] ∧ s.sessionEnd ≤ t.sessionEnd) ∨
    ∃ a, detections [t] = [a] ∧ s.sessionEnd ≤ a ∧ a + s.cfgP ≤ t.sessionEnd := by
  obtain ⟨-, rfl⟩ := deliver_some h
  rcases extract_cases d.record { s with mem := d.mem } with ⟨-, h⟩ | ⟨-, -, h⟩ | ⟨a, hx, ha, h⟩ <;> rw [h]
  · obtain ⟨-, hleft, -⟩ := copyCount_le d.record 0 s.remaining
    refine .inl ⟨detections_copyPhase .., ?_⟩
    simp only [State.sessionEnd, copyPhase_absPos, copyPhase_remaining]
    omega
  · refine .inl ⟨rfl, ?_⟩
    simp only [State.sessionEnd, skipWindow_absPos, skipWindow_remaining]
    omega
  · obtain ⟨e, ⟨-, ⟨-, hlo, -⟩, -⟩, rfl⟩ := (pickedOffset_some _ _ a).mp ha
    have hrem : s.remaining = 0 := (hinv.searching hx).1
    obtain ⟨-, hleft, -⟩ := copyCount_le d.record (e.offset - s.absPos + matchLead s.params) s.cfgP
    refine .inr ⟨e.offset, detections_copyPhase .., ?_, ?_⟩
    · simp only [State.sessionEnd, hrem]
      omega
    · simp only [State.sessionEnd, copyPhase_absPos, copyPhase_remaining]
      omega

/-- A delivery that succeeds leaves `P` as it is (R174). -/
theorem deliver_cfgP {d : Delivery} {s t : State} (h : deliver d s = some t) : t.cfgP = s.cfgP := by
  obtain ⟨-, rfl⟩ := deliver_some h
  simp only [extract_frame]

/-- Along a run the sessions start at least `P` bytes apart, none before the `sessionEnd` of the start. -/
theorem detections_apart {ds : List Delivery} {s : State} {states : List State} (hinv : s.Inv) (hmem : ∀ d ∈ ds, d.mem.wf)
    (h : deliveries ds s = some states) :
    (detections states).Pairwise (fun a b => a + s.cfgP ≤ b) ∧ ∀ a ∈ detections states, s.sessionEnd ≤ a := by
  induction ds generalizing s states with
  | nil =>
    obtain rfl := Option.some.inj h
    simp [detections]
  | cons d ds ih =>
    obtain ⟨t, ts, ht, hts, rfl⟩ := deliveries_cons h
    obtain ⟨hd, hds⟩ := List.forall_mem_cons.mp hmem
    obtain ⟨hapart, hlater⟩ := ih (deliver_inv hinv hd ht) hds hts
    rw [deliver_cfgP ht] at hapart
    rw [detections_cons]
    rcases deliver_detects hinv ht with ⟨hnone, hend⟩ | ⟨a, hsome, hlo, hend⟩
    · rw [hnone]
      exact ⟨hapart, fun b hb => hend.trans (hlater b hb)⟩
    · rw [hsome]
      have hafter : ∀ b ∈ detections ts, a + s.cfgP ≤ b := fun b hb => hend.trans (hlater b hb)
      refine ⟨List.pairwise_cons.mpr ⟨hafter, hapart⟩, List.forall_mem_cons.mpr ⟨hlo, fun b hb => ?_⟩⟩
      have := hafter b hb
      omega

/-- Settles O44: `detections_apart`, where `sessionEnd` is `abs_pos + remaining`. -/
theorem sessionsNeverOverlap : Obligations.SessionsNeverOverlap :=
  fun _ _ _ hinv _ hmem hrun => detections_apart hinv hmem hrun

end Sys2Proof.Machine
end

section
/-! PROOF. Windowing independence (R152).

From a state of a faithful run the payloads still to come are a function of the stream, the events and the session in
progress. A delivery moves some of them into `payloads` and leaves both together as they were. -/

namespace Sys2Proof.Machine

section
variable (S : List Byte) (E : List SyncEvent) (kind len : Nat)

/-! ## `Extract` by its next event -/

/-- The least offset of an event of the matching kind from a position on, inside the stream (R152). -/
def nextEvent (pos : Nat) : Option Nat :=
  leastOffset (E.filter (fun e => decide (e.kind = kind ∧ pos ≤ e.offset ∧ e.offset < S.length)))

/-- `Extract` from a position on, with fuel for every pass that can follow. -/
def extractRest (pos : Nat) : List (List Byte) :=
  extractFrom S E kind len (S.length + 1 - pos) pos

/-- The payloads from a session on that stands at `pos` with `left` bytes to go:
none when the stream ends first, else what is gathered and the bytes to go, and then those of the events past them. -/
def sessionRest (pos left : Nat) (gathered : List Byte) : List (List Byte) :=
  if pos + left > S.length then []
  else (gathered ++ (S.drop pos).take left) :: extractRest S E kind len (pos + left)

variable {S E kind len} {pos : Nat}

theorem nextEvent_none_iff : nextEvent S E kind pos = none ↔
    ∀ e ∈ E, ¬ (e.kind = kind ∧ pos ≤ e.offset ∧ e.offset < S.length) := by
  simp only [nextEvent, leastOffset_none, List.filter_eq_nil_iff, decide_eq_true_eq]

theorem nextEvent_some_iff {t : Nat} : nextEvent S E kind pos = some t ↔
    (∃ e ∈ E, (e.kind = kind ∧ pos ≤ e.offset ∧ e.offset < S.length) ∧ e.offset = t) ∧
      ∀ e ∈ E, e.kind = kind → pos ≤ e.offset → e.offset < S.length → t ≤ e.offset := by
  simp only [nextEvent, leastOffset_some, List.mem_filter, decide_eq_true_eq, and_assoc, and_imp]

theorem nextEvent_bounds {t : Nat} (h : nextEvent S E kind pos = some t) : pos ≤ t ∧ t < S.length := by
  obtain ⟨⟨e, -, ⟨-, hlo, hhi⟩, rfl⟩, -⟩ := nextEvent_some_iff.mp h
  exact ⟨hlo, hhi⟩

theorem extractFrom_of_none (h : nextEvent S E kind pos = none) (fuel : Nat) : extractFrom S E kind len fuel pos = [] := by
  cases fuel with
  | zero => rfl
  | succ fuel =>
    unfold nextEvent at h
    simp only [extractFrom, h]

theorem extractFrom_of_some {t : Nat} (h : nextEvent S E kind pos = some t) (fuel : Nat) :
    extractFrom S E kind len (fuel + 1) pos =
      if t + len > S.length then [] else (S.drop t).take len :: extractFrom S E kind len fuel (t + len) := by
  unfold nextEvent at h
  simp only [extractFrom, h]

/-- Two amounts of fuel that are enough for every byte left give the same, since each pass moves on by at least one. -/
theorem extractFrom_fuel (hlen : 1 ≤ len) {fuel fuel' : Nat} (h : S.length < pos + fuel) (h' : S.length < pos + fuel') :
    extractFrom S E kind len fuel pos = extractFrom S E kind len fuel' pos := by
  induction fuel generalizing pos fuel' with
  | zero =>
    have hnone : nextEvent S E kind pos = none := nextEvent_none_iff.mpr (by omega)
    rw [extractFrom_of_none hnone, extractFrom_of_none hnone]
  | succ fuel ih =>
    cases hnext : nextEvent S E kind pos with
    | none => rw [extractFrom_of_none hnext, extractFrom_of_none hnext]
    | some t =>
      obtain ⟨hlo, hhi⟩ := nextEvent_bounds hnext
      obtain ⟨fuel', rfl⟩ : ∃ n, fuel' = n + 1 := ⟨fuel' - 1, by omega⟩
      rw [extractFrom_of_some hnext, extractFrom_of_some hnext, ih (fuel' := fuel') (by omega) (by omega)]

theorem extractRest_of_none (h : nextEvent S E kind pos = none) : extractRest S E kind len pos = [] :=
  extractFrom_of_none h _

/-- `Extract` goes on with a session at the next event. -/
theorem extractRest_of_some (hlen : 1 ≤ len) {t : Nat} (h : nextEvent S E kind pos = some t) :
    extractRest S E kind len pos = sessionRest S E kind len t len [] := by
  obtain ⟨hlo, hhi⟩ := nextEvent_bounds h
  have hrest : extractFrom S E kind len (S.length - pos) (t + len) = extractRest S E kind len (t + len) :=
    extractFrom_fuel hlen (by omega) (by omega)
  rw [extractRest, Nat.sub_add_comm (by omega), extractFrom_of_some h, hrest]
  rfl

/-- Bytes without a matching event can be passed over. -/
theorem extractRest_skip (hlen : 1 ≤ len) {n : Nat}
    (hnone : ∀ e ∈ E, ¬ (e.kind = kind ∧ pos ≤ e.offset ∧ e.offset < pos + n)) :
    extractRest S E kind len pos = extractRest S E kind len (pos + n) := by
  have hnext : nextEvent S E kind pos = nextEvent S E kind (pos + n) := by
    refine congrArg leastOffset (List.filter_congr fun e he => decide_eq_decide.mpr ?_)
    have := hnone e he
    omega
  cases h : nextEvent S E kind pos with
  | none => rw [extractRest_of_none h, extractRest_of_none (hnext ▸ h)]
  | some t => rw [extractRest_of_some hlen h, extractRest_of_some hlen (hnext ▸ h)]

theorem extractRest_end : extractRest S E kind len S.length = [] :=
  extractRest_of_none (nextEvent_none_iff.mpr (by omega))

/-! ## A session, byte by byte -/

/-- Bytes of the stream that a session gathers change nothing about what is to come. -/
theorem sessionRest_gather {left c : Nat} (hc : c ≤ left) (gathered : List Byte) :
    sessionRest S E kind len pos left gathered =
      sessionRest S E kind len (pos + c) (left - c) (gathered ++ (S.drop pos).take c) := by
  have hend : pos + c + (left - c) = pos + left := by omega
  have htake : (S.drop pos).take left = (S.drop pos).take c ++ (S.drop (pos + c)).take (left - c) := by
    rw [← List.drop_drop, ← List.take_add, Nat.add_sub_cancel' hc]
  simp only [sessionRest, hend, htake, List.append_assoc]

/-- A session with nothing to go is a payload. -/
theorem sessionRest_done (hpos : pos ≤ S.length) (gathered : List Byte) :
    sessionRest S E kind len pos 0 gathered = gathered :: extractRest S E kind len pos := by
  simp [sessionRest, Nat.not_lt.mpr hpos]

/-- A session that the end of the stream cuts off gives nothing (R152). -/
theorem sessionRest_end {left : Nat} (hleft : 1 ≤ left) (gathered : List Byte) :
    sessionRest S E kind len S.length left gathered = [] :=
  if_pos (by omega)

end

/-! ## What a delivery does to the payloads still to come -/

/-- The payloads still to come from a state that stands at `abs_pos` of the stream. -/
def State.toCome (S : List Byte) (E : List SyncEvent) (s : State) : List (List Byte) :=
  match s.xs with
  | .searching => extractRest S E s.cfgKind s.cfgP s.absPos
  | .copying => sessionRest S E s.cfgKind s.cfgP s.absPos s.remaining s.partialPayload

theorem toCome_searching {S : List Byte} {E : List SyncEvent} {s : State} (h : s.xs = .searching) :
    s.toCome S E = extractRest S E s.cfgKind s.cfgP s.absPos := by
  simp [State.toCome, h]

theorem toCome_copying {S : List Byte} {E : List SyncEvent} {s : State} (h : s.xs = .copying) :
    s.toCome S E = sessionRest S E s.cfgKind s.cfgP s.absPos s.remaining s.partialPayload := by
  simp [State.toCome, h]

/-! A delivery is faithful in a state whose memory it brought: the hypothesis `FaithfulDelivery S E s ⟨s.mem, r⟩` below. -/

/-- The bytes a copy moves are the stream's from the cursor on. -/
theorem movedBytes_of_stream {S : List Byte} {E : List SyncEvent} {s : State} {r : StepRecord} (hr : StepReady s r)
    (hf : FaithfulDelivery S E s ⟨s.mem, r⟩) {cursor : Nat} (hc : cursor ≤ r.window.len) (left : Nat) :
    movedBytes r cursor left s = (S.drop (s.absPos + cursor)).take (copyCount r cursor left) := by
  obtain ⟨hlen, hbytes⟩ := movedBytes_spec hr hc left
  obtain ⟨-, hread : ∀ i < r.window.len, s.mem.read (r.window.base + i) = S[s.absPos + i]?, -⟩ := hf
  obtain ⟨hcount, -⟩ := copyCount_le r cursor left
  refine List.ext_getElem? fun k => ?_
  by_cases hk : k < copyCount r cursor left
  · rw [(hbytes k hk).1, Nat.add_assoc, hread (cursor + k) (by omega), List.getElem?_take_of_lt hk, List.getElem?_drop,
      Nat.add_assoc]
  · rw [List.getElem?_eq_none (by omega), List.getElem?_take, if_neg hk]

/-- A copy moves payloads from those to come into `payloads`, and leaves the sum as it was. -/
theorem copyPhase_conserves {S : List Byte} {E : List SyncEvent} {s : State} {r : StepRecord} (hr : StepReady s r)
    (hf : FaithfulDelivery S E s ⟨s.mem, r⟩) {cursor : Nat} (hc : cursor ≤ r.window.len) (left : Nat) (detected : Option Nat) :
    (copyPhase r cursor left detected s).payloads ++ (copyPhase r cursor left detected s).toCome S E =
      s.payloads ++ sessionRest S E s.cfgKind s.cfgP (s.absPos + cursor) left s.partialPayload := by
  have hmoved := movedBytes_of_stream hr hf hc left
  obtain ⟨hwindow, hleft, -⟩ := copyCount_le r cursor left
  rw [sessionRest_gather hleft, ← hmoved, Nat.add_assoc]
  by_cases hdone : left - copyCount r cursor left = 0
  · have hpos : s.absPos + (cursor + copyCount r cursor left) ≤ S.length := by
      obtain ⟨hfits : s.absPos + r.window.len ≤ S.length, -⟩ := hf
      omega
    rw [copyPhase_done detected s hdone, toCome_searching rfl, hdone, sessionRest_done hpos]
    exact List.append_assoc ..
  · rw [copyPhase_more detected s hdone, toCome_copying rfl]
    rfl

/-- The event that a faithful delivery picks is the stream's next one (R134, R136, R227). -/
theorem nextEvent_of_picked {S : List Byte} {E : List SyncEvent} {s : State} {r : StepRecord} {e : SyncEvent}
    (hf : FaithfulDelivery S E s ⟨s.mem, r⟩) (he : IsPicked s r e) :
    nextEvent S E s.cfgKind s.absPos = some e.offset := by
  obtain ⟨hfits, -, hevents⟩ := hf
  obtain ⟨hmem, ⟨hkind, hlo, hhi⟩, hleast⟩ := he
  refine nextEvent_some_iff.mpr ⟨⟨e, (hevents e hlo hhi).mp hmem, ⟨hkind, hlo, hhi.trans_le hfits⟩, rfl⟩,
    fun e' he' hkind' hlo' _ => ?least⟩
  case least =>
    by_cases hhi' : e'.offset < s.absPos + r.window.len
    · exact hleast e' ((hevents e' hlo' hhi').mpr he') hkind' hlo' hhi'
    · omega

/-- One faithful invocation leaves the payloads delivered and still to come as they were, taken together. -/
theorem extract_conserves {S : List Byte} {E : List SyncEvent} {s : State} {r : StepRecord} (hinv : s.Inv)
    (hr : StepReady s r) (hswitch : s.params.startAfterMatch = false) (hf : FaithfulDelivery S E s ⟨s.mem, r⟩) :
    (extract r s).payloads ++ (extract r s).toCome S E = s.payloads ++ s.toCome S E := by
  have hP := hinv.packet hr.configured
  rcases extract_cases r s with ⟨hx, h⟩ | ⟨hx, hp, h⟩ | ⟨t, hx, ht, h⟩ <;> rw [h]
  · rw [copyPhase_conserves hr hf (Nat.zero_le _), toCome_copying hx, Nat.add_zero]
  · have hnone : ∀ e ∈ E, ¬ (e.kind = s.cfgKind ∧ s.absPos ≤ e.offset ∧ e.offset < s.absPos + r.window.len) := by
      rintro e he ⟨hkind, hlo, hhi⟩
      obtain ⟨-, -, hevents⟩ := hf
      exact (pickedOffset_none s r).mp hp e ((hevents e hlo hhi).mpr he) ⟨hkind, hlo, hhi⟩
    rw [toCome_searching hx, extractRest_skip hP hnone, toCome_searching (s := skipWindow r s) hx]
    rfl
  · obtain ⟨e, he, rfl⟩ := (pickedOffset_some s r t).mp ht
    have hlo := he.absPos_le
    have hcursor : s.absPos + (e.offset - s.absPos + matchLead s.params) = e.offset := by
      rw [matchLead_off hswitch]
      omega
    rw [copyPhase_conserves hr hf he.cursor_le, hcursor, (hinv.searching hx).2, toCome_searching hx,
      extractRest_of_some hP (nextEvent_of_picked hf he)]

/-! ## Along a run -/

/-- A faithful run leaves the payloads delivered and still to come as they were, taken together. -/
theorem deliveries_conserve {S : List Byte} {E : List SyncEvent} {ds : List Delivery} {s : State} {states : List State}
    (hinv : s.Inv) (hswitch : s.params.startAfterMatch = false) (hmem : ∀ d ∈ ds, d.mem.wf)
    (h : deliveries ds s = some states) (hf : FaithfulRun S E s ds states) :
    (lastState s states).payloads ++ (lastState s states).toCome S E = s.payloads ++ s.toCome S E := by
  induction ds generalizing s states with
  | nil =>
    obtain rfl := Option.some.inj h
    rfl
  | cons d ds ih =>
    obtain ⟨t, ts, ht, hts, rfl⟩ := deliveries_cons h
    obtain ⟨hd, hds⟩ := List.forall_mem_cons.mp hmem
    obtain ⟨hfd, hfds⟩ := hf
    obtain ⟨hr, htake⟩ := deliver_some ht
    have hswitch' : t.params.startAfterMatch = false := by
      rw [htake]
      simpa only [extract_frame]
    rw [lastState_cons, ih (deliver_inv hinv hd ht) hswitch' hds hts hfds, htake]
    exact extract_conserves (inv_withMem hinv hd) hr hswitch hfd

/-- At the end of the stream nothing is to come: no event is left, and a session in progress is cut off (R152). -/
theorem toCome_end {S : List Byte} (E : List SyncEvent) {s : State} (hinv : s.Inv) (hend : s.absPos = S.length) :
    s.toCome S E = [] := by
  cases hx : s.xs with
  | searching => rw [toCome_searching hx, hend, extractRest_end]
  | copying => rw [toCome_copying hx, hend, sessionRest_end (hinv.copying hx).1]

/-- Settles O45: at the start `Extract` is still to come, at the end of the stream nothing. -/
theorem windowingIndependence : Obligations.WindowingIndependence := by
  intro S E ds s states hinv _ hswitch hx hpos hmem hrun hf hend
  have hlast : (lastState s states).Inv :=
    deliveries_induction hinv (fun d hd _ _ hinv' ht => deliver_inv hinv' (hmem d hd) ht) hrun
  have hsum := deliveries_conserve hinv hswitch hmem hrun hf
  rw [toCome_end E hlast hend, List.append_nil, toCome_searching hx, hpos] at hsum
  exact hsum

end Sys2Proof.Machine
end

section
/-! PROOF. The configuration (R170 to R176): what `CFG` answers in each mode, that a Configured block keeps it until the
next hardware reset, and that nothing but its status output shows the pattern. -/

namespace Sys2Proof.Machine

/-! ## What `CFG` answers in each mode (R171 to R174) -/

section
variable {s : State} {r : CfgRecord}

/-- In Configured mode `CFG` is locked (R174). -/
theorem exec_cfg_configured (hm : s.mode = .configured) :
    exec (.cfg r) s = .next (s.answer { err := .cfgLocked }) := by
  simp [exec, execCfg, hm, raiseErr]

/-- A `CFG` that passes its checks loads the configuration (R172). -/
theorem exec_cfg_legal (hm : s.mode = .unconfigured) (hr : cfgProblem r = none) :
    exec (.cfg r) s = .next ((loadConfig r s).answer { err := .ok }) := by
  simp [exec, execCfg, hm, hr]

/-- A `CFG` that fails a check makes the block Fatal and writes no configuration register (R173). -/
theorem exec_cfg_illegal (hm : s.mode = .unconfigured) {e : ErrCode} (hr : cfgProblem r = some e) :
    exec (.cfg r) s = .next ({ s with mode := .fatal, fatalCode := e }.answer { err := e }) := by
  simp [exec, execCfg, hm, hr, raiseFatal]

end

/-- Settles O28: the checks pass, `cfg_K` is `k`, and the invariants hold codec and extractor at rest outside Configured mode. -/
theorem legalCfgLoadsConfiguration : Obligations.LegalCfgLoadsConfiguration := by
  intro s r k hm hk1 hk8 hpow hplen
  have hlegal : cfgProblem r = none := (cfgProblem_none_iff r).mpr ⟨⟨k, hk1, hk8, hpow⟩, hplen⟩
  refine ⟨?loads, fun hinv => hinv.atRest (by simp [hm])⟩
  case loads =>
    rw [exec_cfg_legal hm hlegal, loadConfig, alphabetBits_of_pow hpow]
    rfl

/-- Settles O29: one case per outcome of the checks; a failed one leaves the block Fatal, where every operation is gated. -/
theorem illegalCfgIsFatal : Obligations.IllegalCfgIsFatal := by
  intro s r hm
  refine ⟨fun hbad => exec_cfg_illegal hm (cfgProblem_badM hbad),
    fun hgood hplen => exec_cfg_illegal hm (cfgProblem_badPlen hgood hplen),
    fun hgood hplen => ⟨_, exec_cfg_legal hm ((cfgProblem_none_iff r).mpr ⟨hgood, hplen⟩), rfl, rfl⟩,
    fun t hx herr i => (exec_gated i t).1 ?fatal⟩
  case fatal =>
    cases hr : cfgProblem r with
    | some e =>
      obtain rfl := Host.Outcome.next.inj ((exec_cfg_illegal hm hr).symm.trans hx)
      rfl
    | none =>
      obtain rfl := Host.Outcome.next.inj ((exec_cfg_legal hm hr).symm.trans hx)
      exact absurd rfl herr

/-! ## Runs with no hardware reset pending -/

/-- No instruction writes the pending acts. -/
theorem exec_pending {i : Instr} {s t : State} (h : exec i s = .next t) : t.pending = s.pending := by
  rcases exec_next i h with ⟨e, rfl, -⟩ | ⟨e, r, rfl, -⟩ | ⟨r, rfl, -⟩ | ⟨-, -, hop⟩
  · rfl
  · rfl
  · rfl
  · rcases hop with ⟨d, -, -, rfl⟩ | ⟨d, -, -, rfl⟩ | ⟨-, rfl⟩ | ⟨-, rfl⟩ | ⟨-, rfl⟩ | ⟨r, -, -, rfl⟩ <;>
      simp [extract_frame]

theorem operate_pending {c : Command} {s t : State} (h : operate c s = .next t) : t.pending = s.pending := by
  rcases operate_next h with ⟨-, rfl⟩ | ⟨i, -, -, hx⟩
  · rfl
  · exact exec_pending hx

/-- A step takes the first pending act and leaves the others. -/
theorem step_pending {s t : State} (h : step s = .next t) : t.pending = s.pending.tail := by
  rcases step_next h with ⟨hp, rfl⟩ | ⟨act, rest, hp, ⟨c, -, hop⟩ | ⟨-, rfl⟩ | ⟨base, bytes, -, rfl⟩⟩
  · simp [hp]
  · simp [hp, operate_pending hop]
  · simp [hp]
  · simp [hp]

/-- A run of at least one step is that step and a run from the state it leaves. -/
theorem run_succ {M : Host.Core} {k : Nat} {s t : M.State} (h : M.run (k + 1) s = .next t) :
    ∃ u, M.step s = .next u ∧ M.run k u = .next t := by
  rw [Host.Core.run] at h
  split at h
  · rename_i u hu
    exact ⟨u, hu, h⟩
  · cases h
  · cases h

/-- What holds at the start of a run with no hardware reset pending, and is kept by each of its steps, holds at its end. -/
theorem run_induction_of_no_reset {holds : State → Prop} {k : Nat} {s t : State} (start : holds s)
    (hreset : .reset ∉ s.pending)
    (keep : ∀ u v, holds u → .reset ∉ u.pending → step u = .next v → holds v)
    (h : Host.Core.run core k s = .next t) : holds t := by
  induction k generalizing s with
  | zero =>
    obtain rfl := Host.Outcome.next.inj h
    exact start
  | succ k ih =>
    obtain ⟨u, hstep, hrun⟩ := run_succ h
    have hreset' : .reset ∉ u.pending := by
      rw [step_pending hstep]
      exact fun hmem => hreset (List.mem_of_mem_tail hmem)
    exact ih (keep s u start hreset hstep) hreset' hrun

/-! ## A Configured block keeps its configuration (R174) -/

/-- `t` has the mode, the configuration registers and `fatal_code` of `s`. -/
def SameConfig (s t : State) : Prop :=
  t.mode = s.mode ∧ t.cfgM = s.cfgM ∧ t.cfgK = s.cfgK ∧ t.cfgP = s.cfgP ∧ t.cfgKind = s.cfgKind ∧
    t.cfgPattern = s.cfgPattern ∧ t.fatalCode = s.fatalCode

theorem SameConfig.refl (s : State) : SameConfig s s := ⟨rfl, rfl, rfl, rfl, rfl, rfl, rfl⟩

theorem SameConfig.trans {s t u : State} (h : SameConfig s t) (h' : SameConfig t u) : SameConfig s u := by
  obtain ⟨hmode, hM, hK, hP, hkind, hpat, hcode⟩ := h
  obtain ⟨hmode', hM', hK', hP', hkind', hpat', hcode'⟩ := h'
  exact ⟨hmode'.trans hmode, hM'.trans hM, hK'.trans hK, hP'.trans hP, hkind'.trans hkind, hpat'.trans hpat,
    hcode'.trans hcode⟩

/-- No instruction writes the configuration outside Unconfigured mode. -/
theorem exec_sameConfig {i : Instr} {s t : State} (hm : s.mode ≠ .unconfigured) (h : exec i s = .next t) :
    SameConfig s t := by
  rcases exec_next i h with ⟨e, rfl, -⟩ | ⟨e, r, -, hm', -⟩ | ⟨r, -, hm', -⟩ | ⟨-, -, hop⟩
  · exact .refl _
  · exact absurd hm' hm
  · exact absurd hm' hm
  · rcases hop with ⟨d, -, -, rfl⟩ | ⟨d, -, -, rfl⟩ | ⟨-, rfl⟩ | ⟨-, rfl⟩ | ⟨-, rfl⟩ | ⟨r, -, -, rfl⟩ <;>
      simp [SameConfig, extract_frame]

/-- Outside Unconfigured mode only a hardware reset changes the configuration. -/
theorem step_sameConfig {s t : State} (hm : s.mode ≠ .unconfigured) (hreset : .reset ∉ s.pending) (h : step s = .next t) :
    SameConfig s t := by
  rcases step_next h with ⟨-, rfl⟩ | ⟨act, rest, hp, ⟨c, -, hop⟩ | ⟨rfl, -⟩ | ⟨base, bytes, -, rfl⟩⟩
  · exact .refl _
  · rcases operate_next hop with ⟨-, rfl⟩ | ⟨i, -, -, hx⟩
    · exact .refl _
    · exact exec_sameConfig (s := { s with pending := rest }) hm hx
  · exact absurd (by simp [hp]) hreset
  · exact .refl _

theorem run_sameConfig {k : Nat} {s t : State} (hm : s.mode ≠ .unconfigured) (hreset : .reset ∉ s.pending)
    (h : Host.Core.run core k s = .next t) : SameConfig s t := by
  refine run_induction_of_no_reset (holds := SameConfig s) (.refl s) hreset (fun u v hu hureset hstep => ?keep) h
  case keep =>
    have hmu : u.mode ≠ .unconfigured := by
      obtain ⟨hmode, -⟩ := hu
      rwa [hmode]
    exact hu.trans (step_sameConfig hmu hureset hstep)

/-- Settles O18: `CFG` is locked or gated, and every step of the run leaves the configuration the same. -/
theorem configurationIsImmutable : Obligations.ConfigurationIsImmutable := by
  refine ⟨fun r s => ⟨fun hm => exec_cfg_configured hm, (exec_gated _ s).1⟩, fun k s t hm hreset hrun => ?run⟩
  case run =>
    obtain ⟨hmode, hregisters⟩ := run_sameConfig (by simp [hm]) hreset hrun
    exact ⟨hmode.trans hm, hregisters⟩

/-! ## The pattern shows in its status output and nowhere else (R176) -/

/-- Store another pattern (R22). -/
def State.withPattern (p : SyncPattern) (s : State) : State := { s with cfgPattern := p }

theorem outsideShared_withPattern (p : SyncPattern) : OutsideShared (State.withPattern p) := by
  constructor <;> intros <;> rfl

theorem outsideEncoder_withPattern (p : SyncPattern) : OutsideEncoder (State.withPattern p) :=
  ⟨outsideShared_withPattern p, fun _ => rfl, fun _ _ => rfl⟩

theorem outsideDecoder_withPattern (p : SyncPattern) : OutsideDecoder (State.withPattern p) :=
  ⟨outsideShared_withPattern p, fun _ => rfl, fun _ _ => rfl⟩

theorem outsideExtractor_withPattern (p : SyncPattern) : OutsideExtractor (State.withPattern p) := by
  constructor
  case toOutsideShared => exact outsideShared_withPattern p
  all_goals intros; rfl

/-- Outside Unconfigured mode `CFG` reads the mode alone. -/
theorem OutsideShared.exec_cfg {f : State → State} (h : OutsideShared f) {s : State} (hm : s.mode ≠ .unconfigured)
    (r : CfgRecord) : exec (.cfg r) (f s) = mapNext f (exec (.cfg r) s) := by
  have hmode := h.mode s
  cases hs : s.mode with
  | unconfigured => exact absurd hs hm
  | configured =>
    rw [exec_cfg_configured hs, exec_cfg_configured (hmode.trans hs)]
    exact h.next_answer rfl _
  | fatal =>
    rw [(exec_gated _ s).1 hs, (exec_gated _ (f s)).1 (hmode.trans hs)]
    exact h.next_answer rfl _

/-- Every operation but a `CFG` in Unconfigured mode commutes with storing another pattern. -/
theorem exec_withPattern (p : SyncPattern) {s : State} {i : Instr} (hi : s.mode = .unconfigured → ∀ r, i ≠ .cfg r) :
    exec i (s.withPattern p) = mapNext (State.withPattern p) (exec i s) := by
  cases i with
  | enc data => exact (outsideEncoder_withPattern p).exec_enc data s
  | dec data => exact (outsideDecoder_withPattern p).exec_dec data s
  | encRst => exact (outsideEncoder_withPattern p).exec_encRst s
  | decRst => exact (outsideDecoder_withPattern p).exec_decRst s
  | syncStep r => exact (outsideExtractor_withPattern p).exec_syncStep r s
  | syncRst => exact (outsideExtractor_withPattern p).exec_syncRst s
  | cfg r => exact (outsideShared_withPattern p).exec_cfg (fun hm => hi hm r rfl) r

/-- Every status output but 0x5 reads registers other than the pattern (R34). -/
theorem statusOutput_withPattern {number : BitVec 4} (hn : number ≠ 0x5) (p : SyncPattern) (s : State) :
    statusOutput number (s.withPattern p) = statusOutput number s := by
  unfold statusOutput
  split
  case h_6 h => exact absurd (BitVec.eq_of_toNat_eq h) hn
  all_goals rfl

/-- Settles O19: the pattern is outside every unit, and only output 0x5 reads it. -/
theorem patternIsNeverRead : Obligations.PatternIsNeverRead :=
  fun s p => ⟨rfl, fun _ hn => statusOutput_withPattern hn p s, fun _ hi => exec_withPattern p hi⟩

end Sys2Proof.Machine
end

section
/-! PROOF. The exceptions (R190 to R205): the error codes, the order of the checks, what an error changes, that every
operation answers, and that a Fatal block stays as it is. -/

namespace Sys2Proof.Machine

/-! ## The idle block and the error codes (R190, R203) -/

/-- Settles O9: a step with no act to take is the idle one. -/
theorem idleBlockHoldsState : Obligations.IdleBlockHoldsState := by
  intro s hp
  simp [step, hp]

/-- The codes number the errors in the order of R190. -/
theorem ErrCode.code_toNat (e : ErrCode) : e.code.toNat = e.ctorIdx := by
  cases e <;> rfl

theorem ErrCode.code_toNat_lt (e : ErrCode) : e.code.toNat < 9 := by
  cases e <;> decide

theorem ErrCode.code_injective : Function.Injective ErrCode.code := by
  intro e e' h
  have hidx : e.ctorIdx = e'.ctorIdx := by rw [← e.code_toNat, ← e'.code_toNat, h]
  rw [← ErrCode.ofNat_ctorIdx e, hidx, ErrCode.ofNat_ctorIdx]

/-- Settles O49: the codes as listed, and a code is the number of its error. -/
theorem errorCodesAreDistinct : Obligations.ErrorCodesAreDistinct :=
  ⟨rfl, rfl, rfl, rfl, rfl, rfl, rfl, rfl, rfl, fun e _ => ⟨e.code_toNat_lt, fun h => ErrCode.code_injective h⟩⟩

/-! ## What an error changes (R192) -/

/-- Settles O15: of the ways an operation answers, an illegal word, an error and a failed `CFG` are those not `OK`. -/
theorem errorsChangeOnlyLastErr : Obligations.ErrorsChangeOnlyLastErr := by
  intro c s t h herr
  rcases operate_next h with ⟨-, rfl⟩ | ⟨i, -, -, hx⟩
  · exact ⟨rfl, fun _ _ => rfl, by simp⟩
  rcases exec_next i hx with ⟨e, rfl, -, hM, hplen, -⟩ | ⟨e, r, rfl, -, -, he⟩ | ⟨r, rfl, -⟩ | ⟨-, hok, -⟩
  · exact ⟨rfl, fun _ _ => rfl, fun hcfg => (hcfg.elim hM hplen).elim⟩
  · exact ⟨rfl, fun hM hplen => (he.elim hM hplen).elim, fun _ => rfl⟩
  · exact absurd rfl herr
  · exact absurd hok herr

/-! ## The order of the checks (R193) -/

/-- The error of the second decode stage (R81, R193 step 5). -/
def widthError (s : State) (i : Instr) : Option ErrCode :=
  match decodeWidth s.cfgK.toNat i with
  | .error _ => some .illegalOp
  | .ok _ => none

/-- The error of the first check that fires on a legal word (R193 steps 2 to 6); `none` when the operation is performed. -/
def firstError (s : State) (i : Instr) : Option ErrCode :=
  match s.mode, i with
  | .fatal, _ => some .fatal
  | .unconfigured, .cfg r => cfgProblem r
  | .unconfigured, _ => some .notConfigured
  | .configured, .cfg _ => some .cfgLocked
  | .configured, .syncStep r => stepProblem s r
  | .configured, i => widthError s i

/-- The outcome is one answer (R191), with code `e`. -/
def Answers (o : Host.Outcome State Fault Refusal) (e : ErrCode) : Prop :=
  ∃ s r, o = .next (State.answer s r) ∧ r.err = e

/-- One invocation of the extractor, past its checks, answers `OK` (R144). -/
theorem extract_answers (r : StepRecord) (s : State) : Answers (.next (extract r s)) .ok := by
  rcases extract_cases r s with ⟨-, h⟩ | ⟨-, -, h⟩ | ⟨t, -, -, h⟩ <;> rw [h] <;> exact ⟨_, _, rfl, rfl⟩

/-- A group wider than `K` bits is answered `ILLEGAL_OP` (R78, R193 step 5). -/
theorem exec_tooWide {s : State} {i : Instr} {e : DecodeError} (hm : s.mode = .configured)
    (hwidth : decodeWidth s.cfgK.toNat i = .error e) : exec i s = .next (s.answer { err := .illegalOp }) := by
  cases i with
  | enc data => simp [exec, execEnc, whenConfigured_configured hm, whenWidthFits, hwidth, raiseErr]
  | dec data => simp [exec, execDec, whenConfigured_configured hm, whenWidthFits, hwidth, raiseErr]
  | _ => cases hwidth

/-- A width check answers its error, or what the operation answers. -/
theorem whenWidthFits_answers (s : State) (i : Instr) {body : Host.Outcome State Fault Refusal} (h : Answers body .ok) :
    Answers (whenWidthFits s i body) ((widthError s i).getD .ok) := by
  unfold whenWidthFits widthError
  cases decodeWidth s.cfgK.toNat i with
  | error e => exact ⟨_, _, rfl, rfl⟩
  | ok j => exact h

/-- In Configured mode a `SYNC.STEP` answers the error of its operand checks or `OK`, but is refused where it passes them
and breaks a buffer duty. -/
theorem exec_syncStep_answers {s : State} (hm : s.mode = .configured) (r : StepRecord) :
    Answers (exec (.syncStep r) s) ((stepProblem s r).getD .ok) ∨
    ∃ why, bufferProblem s.mem r = some why ∧ exec (.syncStep r) s = .refused why := by
  cases hchecks : stepProblem s r with
  | some e => exact .inl ⟨_, _, exec_syncStep_problem hm hchecks, rfl⟩
  | none =>
    cases hbuf : bufferProblem s.mem r with
    | some why => exact .inr ⟨why, rfl, execSyncStep_refused hm hchecks hbuf⟩
    | none =>
      rw [exec, execSyncStep, whenConfigured_configured hm, hchecks, hbuf]
      exact .inl (extract_answers r s)

/-- Every instruction answers the error of the first check that fires, or `OK` when none does;
but a `SYNC.STEP` past its checks is refused where a buffer duty is broken. -/
theorem exec_answers_firstError (i : Instr) (s : State) :
    Answers (exec i s) ((firstError s i).getD .ok) ∨
    ∃ r why, i = .syncStep r ∧ s.mode = .configured ∧ bufferProblem s.mem r = some why ∧ exec i s = .refused why := by
  cases hm : s.mode with
  | fatal => exact .inl ⟨_, _, (exec_gated i s).1 hm, by simp [firstError, hm]⟩
  | unconfigured =>
    cases i with
    | cfg r =>
      cases hr : cfgProblem r with
      | some e => exact .inl ⟨_, _, exec_cfg_illegal hm hr, by simp [firstError, hm, hr]⟩
      | none => exact .inl ⟨_, _, exec_cfg_legal hm hr, by simp [firstError, hm, hr]⟩
    | _ => exact .inl ⟨_, _, (exec_gated _ s).2 hm nofun, by simp [firstError, hm]⟩
  | configured =>
    cases i with
    | cfg r => exact .inl ⟨_, _, exec_cfg_configured hm, by simp [firstError, hm]⟩
    | syncStep r => simpa [firstError, hm] using exec_syncStep_answers hm r
    | enc data =>
      rw [exec, execEnc, whenConfigured_configured hm]
      simpa [firstError, hm] using whenWidthFits_answers s _ ⟨_, _, rfl, rfl⟩
    | dec data =>
      rw [exec, execDec, whenConfigured_configured hm]
      simpa [firstError, hm] using whenWidthFits_answers s _ ⟨_, _, rfl, rfl⟩
    | _ => exact .inl ⟨_, _, whenConfigured_configured hm _, by simp [firstError, hm, widthError, decodeWidth]⟩

/-- An operation for which no check fires answers `OK` (R193). -/
theorem exec_ok_of_no_error {i : Instr} {s t : State} (hnone : firstError s i = none) (h : exec i s = .next t) :
    t.lastErr = .ok := by
  rcases exec_answers_firstError i s with ⟨u, a, hx, ha⟩ | ⟨r, why, -, -, -, hx⟩
  · obtain rfl := Host.Outcome.next.inj (hx.symm.trans h)
    simpa [hnone] using ha
  · cases hx.symm.trans h

/-- No check fires on a legal `CFG` in Unconfigured mode. -/
theorem firstError_cfg {s : State} {r : CfgRecord} (hm : s.mode = .unconfigured)
    (hr : cfgProblem r = none) : firstError s (.cfg r) = none := by
  simp [firstError, hm, hr]

/-- No check fires on another instruction in Configured mode when its group and its operands fit. -/
theorem firstError_configured {s : State} {i : Instr} (hm : s.mode = .configured) (hcfg : ∀ r, i ≠ .cfg r)
    (hwidth : decodeWidth s.cfgK.toNat i = .ok i) (hstep : ∀ r, i = .syncStep r → stepProblem s r = none) :
    firstError s i = none := by
  cases i with
  | cfg r => exact absurd rfl (hcfg r)
  | syncStep r => simpa [firstError, hm] using hstep r rfl
  | _ => simp [firstError, hm, widthError, hwidth]

/-- Settles O12: the error of each check, where the checks before it pass; and where all pass, the operation is performed. -/
theorem checksRunInOrder : Obligations.ChecksRunInOrder := by
  refine fun c s => ⟨fun e he => operate_illegal (by simp [he]) s, fun i hdec hwf => ?legal⟩
  rw [operate_decoded hdec hwf]
  refine ⟨(exec_gated i s).1, (exec_gated i s).2, ?locked, fun hm _ _ => exec_tooWide hm, ?cfg, ?step,
    fun hpass => ⟨rfl, fun t => exec_ok_of_no_error ?performed⟩⟩
  case locked =>
    rintro r rfl hm
    exact exec_cfg_configured hm
  case cfg =>
    rintro r rfl hm
    exact ⟨fun hbad => exec_cfg_illegal hm (cfgProblem_badM hbad),
      fun hgood hplen => exec_cfg_illegal hm (cfgProblem_badPlen hgood hplen)⟩
  case step =>
    rintro r rfl hm
    exact ⟨fun hover => exec_syncStep_problem hm (stepProblem_windowLimit hover), fun hwindow hevents hout hover =>
      exec_syncStep_problem hm (stepProblem_offsetOverflow hwindow hevents hout hover)⟩
  case performed =>
    rcases hpass with ⟨hm, hcfg, hwidth, hfits⟩ | ⟨hm, r, rfl, hgood, hplen⟩
    · exact firstError_configured hm hcfg hwidth fun r hr => (stepProblem_none_iff s r).mpr (hfits r hr)
    · exact firstError_cfg hm ((cfgProblem_none_iff r).mpr ⟨hgood, hplen⟩)

/-! ## Every operation answers (R28, R191) -/

/-- Each refusal names a buffer duty that is broken (R59, R228). -/
theorem bufferProblem_some {m : Memory} {r : StepRecord} {why : Refusal} (h : bufferProblem m r = some why) :
    (why = .bufferOverlap ∧ ∃ i < r.window.len, ∃ j < r.out.len, r.window.base + i = r.out.base + j) ∨
    (why = .windowUnreadable ∧ ∃ i < r.window.len, m.read (r.window.base + i) = none) ∨
    (why = .outputUnwritable ∧ ∃ j < r.out.len, m.read (r.out.base + j) = none) := by
  rw [← buffersOverlap_iff, ← Memory.holds_eq_false_iff, ← Memory.holds_eq_false_iff]
  unfold bufferProblem at h
  split at h
  case isTrue hoverlap => exact .inl ⟨(Option.some.inj h).symm, hoverlap⟩
  split at h
  case isTrue hwindow => exact .inr (.inl ⟨(Option.some.inj h).symm, by simpa using hwindow⟩)
  split at h
  case isTrue hout => exact .inr (.inr ⟨(Option.some.inj h).symm, by simpa using hout⟩)
  cases h

/-- An instruction reads neither `last_err` nor the response, and every branch of it is an answer that overwrites both,
or a refusal: by definition the two outcomes are one. -/
theorem exec_withAnswer (e : ErrCode) (a : Option Response) (i : Instr) (s : State) :
    exec i { s with lastErr := e, resp := a } = exec i s := by
  cases i <;> rfl

theorem operate_withAnswer (e : ErrCode) (a : Option Response) (c : Command) (s : State) :
    operate c { s with lastErr := e, resp := a } = operate c s := by
  cases hdec : decode c with
  | error _ => simp only [operate, hdec]; rfl
  | ok i => simp only [operate, hdec, exec_withAnswer]

/-- Settles O16: an illegal word is answered, an operand too wide refused, and an instruction answers or names its broken duty. -/
theorem everyOperationAnswersOnce : Obligations.EveryOperationAnswersOnce := by
  refine fun c s => ⟨?_, fun e r => operate_withAnswer e r c s⟩
  cases hdec : decode c with
  | error e => exact .inl ⟨_, _, operate_illegal (by simp [hdec]) s, rfl, rfl⟩
  | ok i =>
    cases hwf : i.wf s.params with
    | false => exact .inr (.inl ⟨by simp [operate, hdec, hwf], i, rfl, hwf⟩)
    | true =>
      rw [operate_decoded hdec hwf]
      rcases exec_answers_firstError i s with ⟨u, a, hx, -⟩ | ⟨r, why, rfl, hm, hbuf, hx⟩
      · exact .inl ⟨_, a, hx, rfl, rfl⟩
      · refine .inr (.inr ⟨r, rfl, hm, ?_⟩)
        rw [hx]
        rcases bufferProblem_some hbuf with ⟨rfl, hduty⟩ | ⟨rfl, hduty⟩ | ⟨rfl, hduty⟩ <;> simp [hduty]

/-! ## A Fatal block stays as it is (R205) -/

/-- `t` has every register of `s` but `last_err`, its pending acts are among those of `s`, and its memory is that of `s` where the
host writes nothing. -/
structure SameFatal (s t : State) : Prop where
  registers : t = { s with lastErr := t.lastErr, resp := t.resp, mem := t.mem, pending := t.pending }
  mem : (∀ base bytes, .write base bytes ∉ s.pending) → t.mem = s.mem
  pending : t.pending ⊆ s.pending

theorem SameFatal.refl (s : State) : SameFatal s s := ⟨rfl, fun _ => rfl, List.Subset.refl _⟩

theorem SameFatal.trans {s t u : State} (h : SameFatal s t) (h' : SameFatal t u) : SameFatal s u where
  registers := by rw [h'.registers, h.registers]
  mem hwrite := (h'.mem fun base bytes hmem => hwrite base bytes (h.pending hmem)).trans (h.mem hwrite)
  pending := List.Subset.trans h'.pending h.pending

/-- In Fatal mode an operation that answers changes `last_err` and the response alone (R194). -/
theorem operate_fatal {c : Command} {s t : State} (hm : s.mode = .fatal) (h : operate c s = .next t) :
    ∃ a, t = s.answer a := by
  rcases operate_next h with ⟨-, rfl⟩ | ⟨i, -, -, hx⟩
  · exact ⟨_, rfl⟩
  · exact ⟨_, (Host.Outcome.next.inj (((exec_gated i s).1 hm).symm.trans hx)).symm⟩

/-- In Fatal mode a step that takes no hardware reset leaves the block as it is. -/
theorem step_sameFatal {s t : State} (hm : s.mode = .fatal) (hreset : .reset ∉ s.pending) (h : step s = .next t) :
    SameFatal s t := by
  have hpending : t.pending ⊆ s.pending := by
    rw [step_pending h]
    exact List.tail_subset _
  rcases step_next h with ⟨-, rfl⟩ | ⟨act, rest, hp, ⟨c, -, hop⟩ | ⟨rfl, -⟩ | ⟨base, bytes, rfl, rfl⟩⟩
  · exact .refl _
  · obtain ⟨a, rfl⟩ := operate_fatal (s := { s with pending := rest }) hm hop
    exact ⟨rfl, fun _ => rfl, hpending⟩
  · exact absurd (by simp [hp]) hreset
  · exact ⟨rfl, fun hwrite => absurd (by simp [hp]) (hwrite base bytes), hpending⟩

/-- Settles O17: every step of the run leaves the block Fatal and as it is. -/
theorem fatalIsStickyUntilReset : Obligations.FatalIsStickyUntilReset := by
  intro k s t hm hreset hrun
  have hsame : SameFatal s t := by
    refine run_induction_of_no_reset (holds := SameFatal s) (.refl s) hreset (fun u v hu hureset hstep => ?keep) hrun
    case keep =>
      have hmu : u.mode = .fatal := by rw [hu.registers, hm]
      exact hu.trans (step_sameFatal hmu hureset hstep)
  exact ⟨hsame.registers, hsame.mem⟩

end Sys2Proof.Machine
end

section
/-! PROOF. Reset, boot and progress (R220, R223, R229): the reset values, the two acts that start the block from any state,
and the deliveries that complete a payload. -/

namespace Sys2Proof.Machine

/-! ## Hardware reset (R220) -/

theorem atReset_hardwareReset (s : State) : (hardwareReset s).AtReset := by simp [State.AtReset]

/-- Settles O1: the state after reset is the reset of itself, and a step that takes the reset answers such a state. -/
theorem hardwareResetSetsResetTable : Obligations.HardwareResetSetsResetTable :=
  ⟨atReset_hardwareReset .reset, fun _ _ hp => ⟨_, step_reset hp, atReset_hardwareReset _⟩⟩

/-! ## Boot (R223) -/

theorem run_of_step {k : Nat} {s u : State} (h : step s = .next u) :
    Host.Core.run core (k + 1) s = Host.Core.run core k u := by
  have hcore : core.step s = .next u := h
  simp only [Host.Core.run, hcore]

/-- `cfg_K` of a legal alphabet fits its 4 bits (R175). -/
theorem alphabetBits_toNat {m : BitVec 9} {k : Nat} (hk : k ≤ 8) (h : m.toNat = 2 ^ k) : (alphabetBits m).toNat = k := by
  rw [alphabetBits_of_pow h, BitVec.toNat_ofNat, Nat.mod_eq_of_lt (by omega)]

/-- In Unconfigured mode a step that takes a legal `CFG`, whose operands fit their ports, loads the configuration (R172). -/
theorem step_legalCfg {s : State} {r : CfgRecord} {rest : List HostInput}
    (hp : s.pending = .command (encode (.cfg r)) :: rest) (hwf : r.wf s.params = true) (hm : s.mode = .unconfigured)
    (hr : cfgProblem r = none) : step s = .next ((loadConfig r { s with pending := rest }).answer { err := .ok }) :=
  (stepRunsDecodedInstruction s _ rest (.cfg r) hp (decode_encode _) hwf).trans
    (exec_cfg_legal (s := { s with pending := rest }) hm hr)

/-- Right after a legal `CFG` the resets of `STREAM.START` (R87) find at rest what they write, and answer as the `CFG` did. -/
theorem exec_streamStart_loaded (r : CfgRecord) (s : State) (k : Nat) :
    ∀ i ∈ Pseudo.streamStart.expand k,
      exec i ((loadConfig r s).answer { err := .ok }) = .next ((loadConfig r s).answer { err := .ok }) := by
  have hm : ((loadConfig r s).answer { err := .ok }).mode = .configured := rfl
  simp only [Pseudo.expand, List.forall_mem_cons]
  exact ⟨whenConfigured_configured hm _, whenConfigured_configured hm _, whenConfigured_configured hm _, nofun⟩

/-- Settles O51: the reset makes the block Unconfigured, where the `CFG` loads its configuration. -/
theorem bootConfigures : Obligations.BootConfigures := by
  intro s r rest k hp hwf hk1 hk8 hpow hplen
  have hlegal : cfgProblem r = none := (cfgProblem_none_iff r).mpr ⟨⟨k, hk1, hk8, hpow⟩, hplen⟩
  have hreset := step_reset hp
  have hcfg := step_legalCfg (s := hardwareReset { s with pending := .command (encode (.cfg r)) :: rest }) rfl hwf rfl hlegal
  have hresets := exec_streamStart_loaded r (hardwareReset { s with pending := rest }) k
  refine ⟨_, (run_of_step hreset).trans (run_of_step hcfg), rfl, rfl, rfl, alphabetBits_toNat hk8 hpow, rfl, rfl, rfl, rfl,
    rfl, hresets _ ?enc, hresets _ ?dec, hresets _ ?sync⟩
  all_goals simp [Pseudo.expand]

/-! ## Progress (R229) -/

/-- While Copying, a delivery with a byte and room for one completes the payload, or leaves less of it to go. -/
theorem deliver_progresses {d : Delivery} {s t : State} (hinv : s.Inv) (hx : s.xs = .copying)
    (hbyte : 1 ≤ d.record.window.len) (hroom : 1 ≤ d.record.out.len) (h : deliver d s = some t) :
    (t.xs = .searching ∧ t.payloads.length = s.payloads.length + 1) ∨
    (t.xs = .copying ∧ t.payloads = s.payloads ∧ t.remaining < s.remaining) := by
  obtain ⟨-, rfl⟩ := deliver_some h
  obtain ⟨hleft, -⟩ := hinv.copying hx
  have hcount : 1 ≤ copyCount d.record 0 s.remaining := by
    unfold copyCount
    omega
  rw [extract_of_copying (s := { s with mem := d.mem }) hx]
  by_cases hdone : s.remaining - copyCount d.record 0 s.remaining = 0
  · rw [copyPhase_done none _ hdone]
    exact .inl ⟨rfl, by simp [State.withSx]⟩
  · rw [copyPhase_more none _ hdone]
    exact .inr ⟨rfl, rfl, Nat.sub_lt hleft hcount⟩

/-- Settles O43, by induction on the deliveries: each one completes the payload or leaves fewer bytes to the rest of the run. -/
theorem payloadCompletesUnderProgress : Obligations.PayloadCompletesUnderProgress := by
  intro ds
  induction ds with
  | nil =>
    intro s states hinv hx _ hlen
    obtain ⟨hleft, -⟩ := hinv.copying hx
    exact absurd (hleft.trans hlen) (by decide)
  | cons d ds ih =>
    intro s states hinv hx hduty hlen hmem hrun
    obtain ⟨t, ts, ht, hts, rfl⟩ := deliveries_cons hrun
    obtain ⟨⟨hbyte, hroom⟩, hduties⟩ := List.forall_mem_cons.mp hduty
    obtain ⟨hwf, hwfs⟩ := List.forall_mem_cons.mp hmem
    rcases deliver_progresses hinv hx hbyte hroom ht with hdone | ⟨hxt, hpay, hless⟩
    · exact ⟨t, by simp, hdone⟩
    · have hlen' : t.remaining ≤ ds.length := Nat.le_of_lt_succ (hless.trans_le hlen)
      obtain ⟨u, hu, hxu, hpayu⟩ := ih t ts (deliver_inv hinv hwf ht) hxt hduties hlen' hwfs hts
      exact ⟨u, List.mem_cons_of_mem t hu, hxu, by rw [hpayu, hpay]⟩

end Sys2Proof.Machine
end

section
/-! PROOF. The other value of START_AFTER_MATCH (I17): the payload starts at the byte after the event's byte. -/

namespace Sys2Proof.Machine

/-- With the switch of I17 on, the payload starts one byte after the event's byte. -/
theorem matchLead_on {p : Params} (h : p.startAfterMatch = true) : matchLead p = 1 := by simp [matchLead, h]

/-- A copy from the end of the window moves no byte, whatever the room (R139). -/
theorem copyCount_window_end (r : StepRecord) (left : Nat) : copyCount r r.window.len left = 0 := by
  simp [copyCount]

/-- Settles O35: the copy starts at the cursor that `extract` gives it, one past the event's byte;
past the last byte of the window that is the window's end, where the copy is idle. -/
theorem startAfterMatchSwitch : Obligations.StartAfterMatchSwitch := by
  intro s r e hinv hr hswitch hx he
  have hcursor := he.cursor_le
  have hextract := extract_of_picked hx he
  rw [matchLead_on hswitch] at hcursor hextract
  refine ⟨_, (execSyncStep_ready hr).trans (congrArg _ hextract), copyPhase_outcome hr hcursor _ _, fun hlast => ?last⟩
  case last =>
    have hlo := he.absPos_le
    have hend : e.offset - s.absPos + 1 = r.window.len := by omega
    rw [hend, copyPhase_idle _ s (copyCount_window_end r _) (hinv.packet hr.configured)]
    exact ⟨rfl, rfl, rfl⟩

end Sys2Proof.Machine
end
